-- ==== Sys2Proof/Word.lean ====
section
/-! DEFINITION. The word types of the machine: every quantity is an unsigned bit vector (00_scope R6, R4). -/

namespace Sys2Proof

/-- A memory cell, a V register, a timer, an 8-bit immediate (R10, R17, R18). -/
abbrev Byte := BitVec 8

/-- An instruction word, `pc`, `I`, a return address (R12, R13, R15, R62). -/
abbrev Word := BitVec 16

/-- The 12-bit immediate nnn (R64). -/
abbrev Addr12 := BitVec 12

/-- A register number, a 4-bit field x or y of an instruction (R10, R64). -/
abbrev RegNo := BitVec 4

/-- `zext_16` (R6): the same unsigned number in 16 bits. -/
abbrev zext16 {w : Nat} (b : BitVec w) : Word := b.setWidth 16

end Sys2Proof
end

