-- ==== Sys2Proof/Config.lean ====
section
/-! DEFINITION. The quantities 00_scope R4 fixes, and the one free value, the random byte.
(The parameter FONT is in Sys2Proof/Machine/Font.lean.) -/

namespace Sys2Proof.Config

/-- Memory size in bytes (R4, R17). -/
abbrev memSize : Nat := 4096

/-- The last address, 0xFFF (R4, R47). -/
abbrev lastAddr : Nat := 0xFFF

/-- Where LOAD puts the program, and the reset value of `pc` (R4, R43, R201). -/
abbrev programBase : Nat := 0x200

/-- The largest program, 4096 - 0x200 bytes (R4, R202). -/
abbrev maxProgram : Nat := 3584

/-- Font length in bytes, 16 glyphs of 5 bytes from address 0 (R4, R41). -/
abbrev fontLen : Nat := 80

/-- Display columns (R4, R140). -/
abbrev cols : Nat := 64

/-- Display rows (R4, R140). -/
abbrev rows : Nat := 32

/-- FREE VALUE (log entry 2): the random byte the environment supplies with a STEP when the schedule names
none (R113, R191, D18). It has no value that Lean could see; the counter `State.draws` picks a new one for
each `Cxnn`. Safe: a claim holds for every stream of bytes. -/
opaque rnd : Nat → Byte

end Sys2Proof.Config
end

