-- ==== Sys2Proof/Syntax.lean ====
section
/-! DEFINITION. The 34 instructions (30_encoding R66), one constructor per row of spec/opcode_table.json.
A field has exactly the width the spec gives it (R64), so every term is an instruction. -/

namespace Sys2Proof

/-- The instruction set, in the order of R66. -/
inductive Instr where
  /-- `00E0` Clear display (R141). -/
  | cls
  /-- `00EE` Return (R80). -/
  | ret
  /-- `1nnn` Jump (R81). -/
  | jp (nnn : Addr12)
  /-- `2nnn` Call (R82). -/
  | call (nnn : Addr12)
  /-- `3xnn` Skip if V[x] = nn (R84). -/
  | seImm (x : RegNo) (nn : Byte)
  /-- `4xnn` Skip if V[x] != nn (R85). -/
  | sneImm (x : RegNo) (nn : Byte)
  /-- `5xy0` Skip if V[x] = V[y] (R86). -/
  | seReg (x y : RegNo)
  /-- `6xnn` Load immediate (R102). -/
  | ldImm (x : RegNo) (nn : Byte)
  /-- `7xnn` Add immediate (R103). -/
  | addImm (x : RegNo) (nn : Byte)
  /-- `8xy0` Copy (R104). -/
  | ldReg (x y : RegNo)
  /-- `8xy1` Bitwise OR (R105). -/
  | orReg (x y : RegNo)
  /-- `8xy2` Bitwise AND (R106). -/
  | andReg (x y : RegNo)
  /-- `8xy3` Bitwise XOR (R107). -/
  | xorReg (x y : RegNo)
  /-- `8xy4` Add with carry (R108). -/
  | addReg (x y : RegNo)
  /-- `8xy5` Subtract with borrow (R109). -/
  | subReg (x y : RegNo)
  /-- `8xy6` Shift right (R110). -/
  | shrReg (x y : RegNo)
  /-- `8xy7` Reverse subtract with borrow (R111). -/
  | subnReg (x y : RegNo)
  /-- `8xyE` Shift left (R112). -/
  | shlReg (x y : RegNo)
  /-- `9xy0` Skip if V[x] != V[y] (R87). -/
  | sneReg (x y : RegNo)
  /-- `Annn` Load index (R120). -/
  | ldI (nnn : Addr12)
  /-- `Bnnn` Jump with offset V[0] (R83). -/
  | jpV0 (nnn : Addr12)
  /-- `Cxnn` Random (R113). -/
  | rnd (x : RegNo) (nn : Byte)
  /-- `Dxyn` Draw sprite (R142). -/
  | drw (x y : RegNo) (n : BitVec 4)
  /-- `Ex9E` Skip if key pressed (R150). -/
  | skp (x : RegNo)
  /-- `ExA1` Skip if key not pressed (R151). -/
  | sknp (x : RegNo)
  /-- `Fx07` Load delay timer (R153). -/
  | ldDT (x : RegNo)
  /-- `Fx0A` Block for key (R152). -/
  | ldKey (x : RegNo)
  /-- `Fx15` Set delay timer (R154). -/
  | setDT (x : RegNo)
  /-- `Fx18` Set sound timer (R155). -/
  | setST (x : RegNo)
  /-- `Fx1E` Add to index (R121). -/
  | addI (x : RegNo)
  /-- `Fx29` Load font address (R122). -/
  | ldFont (x : RegNo)
  /-- `Fx33` Store BCD digits (R123). -/
  | bcd (x : RegNo)
  /-- `Fx55` Store registers V[0]..V[x] (R125). -/
  | storeRegs (x : RegNo)
  /-- `Fx65` Load registers V[0]..V[x] (R126). -/
  | loadRegs (x : RegNo)
  deriving DecidableEq, Repr

end Sys2Proof
end

