-- ==== Sys2Proof/Machine/State.lean ====
section
/-! DEFINITION. The state of the machine as plain data (10_state), the environment's inputs and outputs the
model holds beside it, the outcomes a step can stop with, and the state after RESET (70_reset R200). -/

namespace Sys2Proof.Machine

/-- Memory: (address, byte) pairs, addresses strictly rising and below 4096, no entry equal to what an
unlisted address reads as, the reset contents (R17, R200; `Memory.wf` in Machine/Ops.lean). -/
abbrev Memory := List Host.Cell

/-- The display, 32 rows of 64 one-bit pixels: bit x of row y is `disp[x][y]` (R19, R140).
DESIGN CHOICE (log entry 14): the packing of a row; safe, `pixel` is the only reader. -/
abbrev Display := Vector (BitVec 64) 32

/-- The causes the `fault` register can hold, `none` while the machine runs (R23, R171). -/
inductive FaultCause where
  /-- 0 NONE: running. -/
  | none
  /-- 1 LOAD_TOO_LARGE: a LOAD of more than 3584 bytes (R202). -/
  | loadTooLarge
  /-- 2 FETCH_RANGE: a STEP found pc > 0xFFE (R48). -/
  | fetchRange
  /-- 3 MEM_RANGE: a data access would pass 0xFFF (R47). -/
  | memRange
  /-- 4 STACK_OVERFLOW: `2nnn` at sp = 16 (R82). -/
  | stackOverflow
  /-- 5 STACK_UNDERFLOW: `00EE` at sp = 0 (R80). -/
  | stackUnderflow
  /-- 6 KEY_INDEX: `Ex9E` or `ExA1` with V[x] > 0xF (R150, R151). -/
  | keyIndex
  deriving DecidableEq, Repr

/-- The diagnostic event `diag(UNKNOWN_OPCODE, word, address)` (R68, R176). -/
structure Diag where
  word : Word
  address : Word
  deriving DecidableEq, Repr

/-- The operations of the host (R5, R186). -/
inductive HostOp where
  /-- RESET (R200). -/
  | reset
  /-- LOAD(bytes) (R201, R202). -/
  | load (bytes : List Byte)
  /-- STEP(rnd) (R60). -/
  | step (rnd : Byte)
  /-- TICK (R183). -/
  | tick
  /-- SETKEYS(k) (R188). -/
  | setKeys (k : Vector Bool 16)
  /-- CLEARDIRTY (R189). -/
  | clearDirty
  deriving DecidableEq, Repr

/-- The state. The fields to `fault` are the spec's (10_state); the last four are the model's own: what the
environment supplies (`rnd`, `draws`, `schedule`) and the output of the STEP just performed (`diag`). -/
structure State where
  /-- V0 to VF (R10, R11). -/
  V : Vector Byte 16
  /-- The index register (R12). -/
  I : Word
  /-- The program counter (R13). -/
  pc : Word
  /-- The return addresses (R15). -/
  stack : Vector Word 16
  /-- The number of return addresses held, 0 to 16 (R16). DEDUCED (log entry 17): the range is its type; safe. -/
  sp : Fin 17
  /-- The delay timer (R18). -/
  DT : Byte
  /-- The sound timer (R18). -/
  ST : Byte
  /-- The 4096 bytes (R17). -/
  mem : Memory
  /-- The pixels (R19). -/
  disp : Display
  /-- The keypad latch (R20). -/
  key : Vector Bool 16
  /-- The redraw signal (R21). -/
  dirty : Bool
  /-- The word last fetched (R22). -/
  opcode : Word
  /-- The fault register (R23). -/
  fault : FaultCause
  /-- Output port: the event of the STEP just performed (R176, R190; log entry 4). -/
  diag : Option Diag
  /-- Input port: the random byte supplied with the STEP in progress (R113, R191; log entry 2). -/
  rnd : Byte
  /-- How many free random bytes have been consumed (log entry 2). -/
  draws : Nat
  /-- The operations the host issues next, in order; when it is empty the host issues STEP (R187, D2; log entry 3). -/
  schedule : List HostOp
  deriving DecidableEq, Repr

/-- Why a step would stop with a fault. NOBODY raises one: a fatal condition of this machine is the sticky
register `State.fault`, a next state (R172, R173; log entry 5), so the type has no constructor. -/
inductive Fault where
  deriving DecidableEq, Repr

/-- Why a step would be refused. -/
inductive Refusal where
  /-- Raised by an arm of `exec` whose instruction has no meaning yet; no arm does, all 34 have one. Safe. -/
  | notModelled (mnemonic : String)
  deriving DecidableEq, Repr

/-- What the host can observe between operations (R190). -/
structure Observation where
  disp : Display
  dirty : Bool
  fault : FaultCause
  diag : Option Diag
  deriving DecidableEq, Repr

/-- The state right after RESET, which is the power-on state too (R200, D28). Memory lists nothing: an
unlisted address reads as its reset contents. The last four fields are the model's own (log entries 2, 3, 4:
DESIGN CHOICE; unsafe, so no statement rests on them). -/
def State.reset : State where
  V := Vector.replicate 16 0
  I := 0x0200
  pc := 0x0200
  stack := Vector.replicate 16 0
  sp := 0
  DT := 0
  ST := 0
  mem := []
  disp := Vector.replicate 32 0
  key := Vector.replicate 16 false
  dirty := true
  opcode := 0
  fault := .none
  diag := Option.none
  rnd := 0
  draws := 0
  schedule := []

end Sys2Proof.Machine
end

