-- ==== Sys2Proof/Machine/Font.lean ====
section
/-! DEFINITION. The parameter FONT (00_scope R4, 20_memory R41), at the default the spec gives it, and what a
memory address reads as after RESET (R200). -/

namespace Sys2Proof.Machine

/-- Glyphs 0 to 7 of R41's default table. DESIGN CHOICE (log entry 1): the model takes the parameter at this
default, which the spec marks as general knowledge; unsafe for a claim about a glyph's pixels. -/
def fontLow : List Byte :=
  [0xF0, 0x90, 0x90, 0x90, 0xF0] ++
  [0x20, 0x60, 0x20, 0x20, 0x70] ++
  [0xF0, 0x10, 0xF0, 0x80, 0xF0] ++
  [0xF0, 0x10, 0xF0, 0x10, 0xF0] ++
  [0x90, 0x90, 0xF0, 0x10, 0x10] ++
  [0xF0, 0x80, 0xF0, 0x10, 0xF0] ++
  [0xF0, 0x80, 0xF0, 0x90, 0xF0] ++
  [0xF0, 0x10, 0x20, 0x40, 0x40]

/-- Glyphs 8 to F of R41's default table. -/
def fontHigh : List Byte :=
  [0xF0, 0x90, 0xF0, 0x90, 0xF0] ++
  [0xF0, 0x90, 0xF0, 0x10, 0xF0] ++
  [0xF0, 0x90, 0xF0, 0x90, 0x90] ++
  [0xE0, 0x90, 0xE0, 0x90, 0xE0] ++
  [0xF0, 0x80, 0x80, 0x80, 0xF0] ++
  [0xE0, 0x90, 0x90, 0x90, 0xE0] ++
  [0xF0, 0x80, 0xF0, 0x80, 0xF0] ++
  [0xF0, 0x80, 0xF0, 0x80, 0x80]

/-- FONT[0..79]. -/
def font : List Byte := fontLow ++ fontHigh

/-- The reset contents of address `a`: FONT at 0x000 to 0x04F, 0 elsewhere (R17, R40, R200). -/
def resetByte (a : Nat) : Byte :=
  if a < Config.fontLen then font.getD a 0 else 0

end Sys2Proof.Machine
end

