-- ==== Sys2Proof/Machine/Ops.lean ====
section
/-! DEFINITION. The named operations over registers, memory, stack and display, and the taking of a fault. -/

namespace Sys2Proof.Machine

/-! ### Registers (R10) -/

/-- `V[r]`. -/
def State.reg (s : State) (r : RegNo) : Byte := s.V[r.toNat]'r.isLt

/-- `V[r] <- b`. -/
def State.setReg (s : State) (r : RegNo) (b : Byte) : State := { s with V := s.V.set r.toNat b r.isLt }

/-- The number of the flags register, VF (R11). -/
def VF : RegNo := 0xF

/-- `I <- w` (R12). -/
def State.setI (s : State) (w : Word) : State := { s with I := w }

/-- `pc <- w` (R13). -/
def State.setPc (s : State) (w : Word) : State := { s with pc := w }

/-- `DT <- b` (R18). -/
def State.setDT (s : State) (b : Byte) : State := { s with DT := b }

/-- `ST <- b` (R18). -/
def State.setST (s : State) (b : Byte) : State := { s with ST := b }

/-! ### Faults (R171, R172) -/

/-- The code of a cause, R171's numbering. -/
def FaultCause.code : FaultCause → BitVec 3
  | .none => 0
  | .loadTooLarge => 1
  | .fetchRange => 2
  | .memRange => 3
  | .stackOverflow => 4
  | .stackUnderflow => 5
  | .keyIndex => 6

/-- Fault entry: `fault <- c`, and nothing else (R172). -/
def State.setFault (s : State) (c : FaultCause) : State := { s with fault := c }

/-- `raise Fault(c)` inside a STEP: the machine takes the fault, a next state (R6, R172). There is no return
from a fault but RESET and LOAD (R173), which are in Machine/HostOps.lean. -/
def takeFault (c : FaultCause) (s : State) : Host.Outcome State Fault Refusal := .next (s.setFault c)

/-! ### Memory cells (R17, R46) -/

/-- The canonical form: addresses strictly rising, all of them addresses, no entry equal to the reset contents. -/
abbrev Memory.wf (m : Memory) : Prop :=
  m.Pairwise (fun c d => c.1 < d.1) ∧ ∀ c ∈ m, c.1 < Config.memSize ∧ c.2 ≠ resetByte c.1

/-- `mem[a]`: the byte listed for `a`, else the reset contents. -/
def Memory.read : Memory → Nat → Byte
  | [], a => resetByte a
  | (b, v) :: rest, a => if a = b then v else Memory.read rest a

/-- Put an entry for `a` in front of entries above it, or none where the byte is the reset contents. -/
def Memory.put (a : Nat) (v : Byte) (rest : Memory) : Memory :=
  if v = resetByte a then rest else (a, v) :: rest

/-- `mem[a] <- v`, keeping the canonical form. -/
def Memory.write : Memory → Nat → Byte → Memory
  | [], a, v => Memory.put a v []
  | (b, w) :: rest, a, v =>
    if a < b then Memory.put a v ((b, w) :: rest)
    else if a = b then Memory.put a v rest
    else (b, w) :: Memory.write rest a v

/-- `mem[a + k] <- v[k]` for every byte of the list (R46). -/
def Memory.writeList (m : Memory) (a : Nat) : List Byte → Memory
  | [] => m
  | v :: vs => Memory.writeList (m.write a v) (a + 1) vs

/-- `[mem[a], mem[a + 1], ..., mem[a + n - 1]]` (R46). -/
def Memory.readList (m : Memory) (a n : Nat) : List Byte := (List.range n).map (fun k => m.read (a + k))

/-! ### The stack (R15, R16) -/

/-- Push a return address; `none` when sp = 16 (R82). -/
def State.push (s : State) (w : Word) : Option State :=
  if h : s.sp.val < 16 then
    some { s with stack := s.stack.set s.sp.val w h, sp := ⟨s.sp.val + 1, by omega⟩ }
  else none

/-- Pop a return address, leaving its entry as it is; `none` when sp = 0 (R80). -/
def State.pop (s : State) : Option (Word × State) :=
  if h : 0 < s.sp.val then
    some (s.stack[s.sp.val - 1]'(by omega), { s with sp := ⟨s.sp.val - 1, by omega⟩ })
  else none

/-! ### The display (R19, R140) -/

/-- `disp[x][y]`; outside the grid there is no pixel, and the answer is false. -/
def Display.pixel (d : Display) (x y : Nat) : Bool :=
  if h : y < 32 then (d[y]'h).getLsbD x else false

/-- `disp[x][y]` of a state. -/
def State.pixel (s : State) (x y : Nat) : Bool := s.disp.pixel x y

/-- `disp[px][py] <- disp[px][py] XOR 1` for a pixel of the grid, noting in the flag whether it was set; a
pixel off the grid is skipped and takes no part (R142: clip, D12; log entry 11). -/
def plot (px py : Nat) (a : Display × Bool) : Display × Bool :=
  if h : px < 64 ∧ py < 32 then
    (a.1.set py (a.1[py]'h.2 ^^^ (1#64 <<< px)) h.2, a.2 || a.1.pixel px py)
  else a

/-- One row byte of a sprite at (x0, py): k = 0 is bit 7 (R140, D20; log entry 8). -/
def drawRow (row : Byte) (x0 py : Nat) (a : Display × Bool) : Display × Bool :=
  (List.range 8).foldl (fun a k => if row.getLsbD (7 - k) then plot (x0 + k) py a else a) a

/-- The rows of a sprite at increasing y (R142). -/
def drawRows : List Byte → Nat → Nat → Display × Bool → Display × Bool
  | [], _, _, a => a
  | row :: more, x0, y0, a => drawRows more x0 (y0 + 1) (drawRow row x0 y0 a)

end Sys2Proof.Machine
end

