-- ==== Sys2Proof/Machine/Operands.lean ====
section
/-! DEFINITION. The operand forms: the data addressing mode with its range check (42_index_memory R124,
20_memory R46, R47), the register runs, the key operand, and the skip. -/

namespace Sys2Proof.Machine

/-! ### Data accesses (R46, R47, R124) -/

/-- The range check of R47: n = 0 touches nothing; else addr + n - 1 <= 0xFFF, without wrapping. -/
def inRange (addr : Word) (n : Nat) : Bool := n == 0 || decide (addr.toNat + n - 1 ≤ Config.lastAddr)

/-- `MemRead(addr, n)`; `none` where it raises MEM_RANGE (R46, R47). -/
def memRead (addr : Word) (n : Nat) (s : State) : Option (List Byte) :=
  if inRange addr n then some (s.mem.readList addr.toNat n) else none

/-- `MemWrite(addr, n, v)`; `none` where it raises MEM_RANGE, with nothing written (R46, R47). -/
def memWrite (addr : Word) (v : List Byte) (s : State) : Option State :=
  if inRange addr v.length then some { s with mem := s.mem.writeList addr.toNat v } else none

/-! ### Register runs (R10, R125, R126) -/

/-- `[V[0], V[1], ..., V[x]]`. -/
def State.regRun (s : State) (x : RegNo) : List Byte := s.V.toList.take (x.toNat + 1)

/-- `V[k] <- b[k]` for every k the list has; the registers above keep their values. -/
def State.setRegRun (s : State) (b : List Byte) : State :=
  { s with V := Vector.ofFn fun k : Fin 16 => b.getD k.val s.V[k] }

/-- `I <- (I + x + 1) mod 65536`, the post-increment of the register runs (R124, R125, R126). -/
def State.advanceI (s : State) (x : RegNo) : State := s.setI (s.I + zext16 x + 1)

/-! ### Keys (R20, R150, R152) -/

/-- `key[V[x]]`; `none` where V[x] > 0xF, which raises KEY_INDEX (R150, D10). -/
def keyOperand (x : RegNo) (s : State) : Option Bool := s.key[(s.reg x).toNat]?

/-- The least i with key[i] = 1, or `none` while no key is down (R152, D11; log entry 9). -/
def lowestKey (s : State) : Option (Fin 16) := (List.finRange 16).find? fun i => s.key[i]

/-! ### Skips (R84) -/

/-- Skip one instruction, two bytes, when the condition holds (R84 to R87, R150, R151). -/
def skipIf (c : Bool) (s : State) : State := if c then s.setPc (s.pc + 2) else s

/-! ### Decimal digits (R123) -/

/-- Hundreds, tens, ones (R123, D21; log entry 8). -/
def bcdDigits (v : Byte) : List Byte :=
  [BitVec.ofNat 8 (v.toNat / 100), BitVec.ofNat 8 (v.toNat / 10 % 10), BitVec.ofNat 8 (v.toNat % 10)]

end Sys2Proof.Machine
end

