-- ==== Sys2Proof/Machine/Flags.lean ====
section
/-! DEFINITION. The flag computations (41_register_alu R100, R108 to R112) and the order of the two writes of
a flag-producing instruction (R101). -/

namespace Sys2Proof.Machine

/-- A flag as a register holds it: 1 or 0 (R11). -/
def flagByte (c : Bool) : Byte := if c then 1 else 0

/-- `8xy4`: 1 if V[y] > 255 - V[x] (R108). -/
def carryFlag (a b : Byte) : Byte := flagByte (decide (b.toNat > 255 - a.toNat))

/-- `8xy5`: 0 if V[y] > V[x], else 1 (R109). -/
def subFlag (a b : Byte) : Byte := flagByte (!decide (b.toNat > a.toNat))

/-- `8xy7`: 0 if V[x] > V[y], else 1 (R111). -/
def subnFlag (a b : Byte) : Byte := flagByte (!decide (a.toNat > b.toNat))

/-- `8xy6`: bit 0 of V[y] (R110). -/
def shrFlag (_ b : Byte) : Byte := flagByte (b.getLsbD 0)

/-- `8xyE`: bit 7 of V[y] (R112). -/
def shlFlag (_ b : Byte) : Byte := flagByte (b.getLsbD 7)

/-- The two writes of R101: VF gets the flag of the entry values first; then V[x] gets the result of the
registers as they stand after that write (D14; log entry 6). -/
def flagThenResult (flag result : Byte → Byte → Byte) (x y : RegNo) (s : State) : State :=
  let s1 := s.setReg VF (flag (s.reg x) (s.reg y))
  s1.setReg x (result (s1.reg x) (s1.reg y))

end Sys2Proof.Machine
end

