-- ==== Sys2Proof/Machine/ControlFlow.lean ====
section
/-! DEFINITION. The meanings of 40_control_flow: return, jump, call, jump with offset, skips. On entry
pc = A + 2 (R60). -/

namespace Sys2Proof.Machine

/-- `00EE` RET (R80). -/
def execRet (s : State) : Host.Outcome State Fault Refusal :=
  match s.pop with
  | none => takeFault .stackUnderflow s
  | some (w, s1) => .next (s1.setPc w)

/-- `1nnn` JP nnn (R81). -/
def execJp (nnn : Addr12) (s : State) : Host.Outcome State Fault Refusal := .next (s.setPc (zext16 nnn))

/-- `2nnn` CALL nnn (R82): the pushed pc is the advanced one. -/
def execCall (nnn : Addr12) (s : State) : Host.Outcome State Fault Refusal :=
  match s.push s.pc with
  | none => takeFault .stackOverflow s
  | some s1 => .next (s1.setPc (zext16 nnn))

/-- `Bnnn` JP V0, nnn (R83): the sum is not reduced modulo 0x1000 (D9). -/
def execJpV0 (nnn : Addr12) (s : State) : Host.Outcome State Fault Refusal :=
  .next (s.setPc (zext16 nnn + zext16 (s.reg 0)))

/-- `3xnn` SE Vx, nn (R84). -/
def execSeImm (x : RegNo) (nn : Byte) (s : State) : Host.Outcome State Fault Refusal :=
  .next (skipIf (s.reg x == nn) s)

/-- `4xnn` SNE Vx, nn (R85). -/
def execSneImm (x : RegNo) (nn : Byte) (s : State) : Host.Outcome State Fault Refusal :=
  .next (skipIf (s.reg x != nn) s)

/-- `5xy0` SE Vx, Vy (R86). -/
def execSeReg (x y : RegNo) (s : State) : Host.Outcome State Fault Refusal :=
  .next (skipIf (s.reg x == s.reg y) s)

/-- `9xy0` SNE Vx, Vy (R87). -/
def execSneReg (x y : RegNo) (s : State) : Host.Outcome State Fault Refusal :=
  .next (skipIf (s.reg x != s.reg y) s)

end Sys2Proof.Machine
end

