-- ==== Sys2Proof/Machine/DisplayUnit.lean ====
section
/-! DEFINITION. The meanings of 43_display: clear and draw. -/

namespace Sys2Proof.Machine

/-- `00E0` CLS (R141): every pixel 0, `dirty` set. -/
def execCls (s : State) : Host.Outcome State Fault Refusal :=
  .next { s with disp := Vector.replicate 32 0, dirty := true }

/-- Draw the rows at the origin (x0, y0): the pixels, then VF (the collision), then `dirty` (R142). -/
def drawSprite (sprite : List Byte) (x0 y0 : Nat) (s : State) : State :=
  let a := drawRows sprite x0 y0 (s.disp, false)
  { s.setReg VF (flagByte a.2) with disp := a.1, dirty := true }

/-- `Dxyn` DRW Vx, Vy, n (R142): the origin is read on entry, all n bytes are range-checked (D32). -/
def execDrw (x y : RegNo) (n : BitVec 4) (s : State) : Host.Outcome State Fault Refusal :=
  match memRead s.I n.toNat s with
  | none => takeFault .memRange s
  | some sprite => .next (drawSprite sprite ((s.reg x).toNat % Config.cols) ((s.reg y).toNat % Config.rows) s)

end Sys2Proof.Machine
end

