-- ==== Sys2Proof/Machine/IndexMemory.lean ====
section
/-! DEFINITION. The meanings of 42_index_memory: the index register, BCD, register store and load. -/

namespace Sys2Proof.Machine

/-- `Annn` LD I, nnn (R120). -/
def execLdI (nnn : Addr12) (s : State) : Host.Outcome State Fault Refusal := .next (s.setI (zext16 nnn))

/-- `Fx1E` ADD I, Vx (R121): modulo 65536, no flag (D8). -/
def execAddI (x : RegNo) (s : State) : Host.Outcome State Fault Refusal :=
  .next (s.setI (s.I + zext16 (s.reg x)))

/-- `Fx29` LD F, Vx (R122): 5 * V[x], no masking. -/
def execLdFont (x : RegNo) (s : State) : Host.Outcome State Fault Refusal :=
  .next (s.setI (5 * zext16 (s.reg x)))

/-- `Fx33` LD B, Vx (R123): three digits at I, I + 1, I + 2; I is not changed. -/
def execBcd (x : RegNo) (s : State) : Host.Outcome State Fault Refusal :=
  match memWrite s.I (bcdDigits (s.reg x)) s with
  | none => takeFault .memRange s
  | some s1 => .next s1

/-- `Fx55` LD [I], Vx (R125). -/
def execStoreRegs (x : RegNo) (s : State) : Host.Outcome State Fault Refusal :=
  match memWrite s.I (s.regRun x) s with
  | none => takeFault .memRange s
  | some s1 => .next (s1.advanceI x)

/-- `Fx65` LD Vx, [I] (R126). -/
def execLoadRegs (x : RegNo) (s : State) : Host.Outcome State Fault Refusal :=
  match memRead s.I (x.toNat + 1) s with
  | none => takeFault .memRange s
  | some b => .next ((s.setRegRun b).advanceI x)

end Sys2Proof.Machine
end

