-- ==== Sys2Proof/Machine/KeypadTimers.lean ====
section
/-! DEFINITION. The meanings of 44_keypad_timers: the key skips, the key wait, the timer moves. -/

namespace Sys2Proof.Machine

/-- `Ex9E` SKP Vx (R150). -/
def execSkp (x : RegNo) (s : State) : Host.Outcome State Fault Refusal :=
  match keyOperand x s with
  | none => takeFault .keyIndex s
  | some k => .next (skipIf k s)

/-- `ExA1` SKNP Vx (R151). -/
def execSknp (x : RegNo) (s : State) : Host.Outcome State Fault Refusal :=
  match keyOperand x s with
  | none => takeFault .keyIndex s
  | some k => .next (skipIf (!k) s)

/-- `Fx0A` LD Vx, K (R152): rewind while no key is down, else the lowest pressed key. -/
def execLdKey (x : RegNo) (s : State) : Host.Outcome State Fault Refusal :=
  match lowestKey s with
  | none => .next (s.setPc (s.pc - 2))
  | some i => .next (s.setReg x (BitVec.ofNat 8 i.val))

/-- `Fx07` LD Vx, DT (R153). -/
def execLdDT (x : RegNo) (s : State) : Host.Outcome State Fault Refusal := .next (s.setReg x s.DT)

/-- `Fx15` LD DT, Vx (R154). -/
def execSetDT (x : RegNo) (s : State) : Host.Outcome State Fault Refusal := .next (s.setDT (s.reg x))

/-- `Fx18` LD ST, Vx (R155). -/
def execSetST (x : RegNo) (s : State) : Host.Outcome State Fault Refusal := .next (s.setST (s.reg x))

end Sys2Proof.Machine
end

