-- ==== Sys2Proof/Machine/RegisterAlu.lean ====
section
/-! DEFINITION. The meanings of 41_register_alu: loads, logic, arithmetic with flag, shifts, random. -/

namespace Sys2Proof.Machine

/-- `6xnn` LD Vx, nn (R102). -/
def execLdImm (x : RegNo) (nn : Byte) (s : State) : Host.Outcome State Fault Refusal := .next (s.setReg x nn)

/-- `7xnn` ADD Vx, nn (R103): modulo 256, no flag. -/
def execAddImm (x : RegNo) (nn : Byte) (s : State) : Host.Outcome State Fault Refusal :=
  .next (s.setReg x (s.reg x + nn))

/-- `8xy0` LD Vx, Vy (R104). -/
def execLdReg (x y : RegNo) (s : State) : Host.Outcome State Fault Refusal := .next (s.setReg x (s.reg y))

/-- `8xy1` OR Vx, Vy (R105). -/
def execOrReg (x y : RegNo) (s : State) : Host.Outcome State Fault Refusal :=
  .next (s.setReg x (s.reg x ||| s.reg y))

/-- `8xy2` AND Vx, Vy (R106). -/
def execAndReg (x y : RegNo) (s : State) : Host.Outcome State Fault Refusal :=
  .next (s.setReg x (s.reg x &&& s.reg y))

/-- `8xy3` XOR Vx, Vy (R107). -/
def execXorReg (x y : RegNo) (s : State) : Host.Outcome State Fault Refusal :=
  .next (s.setReg x (s.reg x ^^^ s.reg y))

/-- `8xy4` ADD Vx, Vy (R108). -/
def execAddReg (x y : RegNo) (s : State) : Host.Outcome State Fault Refusal :=
  .next (flagThenResult carryFlag (fun a b => a + b) x y s)

/-- `8xy5` SUB Vx, Vy (R109). -/
def execSubReg (x y : RegNo) (s : State) : Host.Outcome State Fault Refusal :=
  .next (flagThenResult subFlag (fun a b => a - b) x y s)

/-- `8xy6` SHR Vx, Vy (R110): the source is V[y] (D15; log entry 7). -/
def execShrReg (x y : RegNo) (s : State) : Host.Outcome State Fault Refusal :=
  .next (flagThenResult shrFlag (fun _ b => b >>> 1) x y s)

/-- `8xy7` SUBN Vx, Vy (R111): V[y] - V[x] (D15; log entry 7). -/
def execSubnReg (x y : RegNo) (s : State) : Host.Outcome State Fault Refusal :=
  .next (flagThenResult subnFlag (fun a b => b - a) x y s)

/-- `8xyE` SHL Vx, Vy (R112): the source is V[y] (D15; log entry 7). -/
def execShlReg (x y : RegNo) (s : State) : Host.Outcome State Fault Refusal :=
  .next (flagThenResult shlFlag (fun _ b => b <<< 1) x y s)

/-- `Cxnn` RND Vx, nn (R113): the byte supplied with the STEP, AND nn; the byte is consumed (log entry 2). -/
def execRnd (x : RegNo) (nn : Byte) (s : State) : Host.Outcome State Fault Refusal :=
  .next { s.setReg x (s.rnd &&& nn) with draws := s.draws + 1 }

end Sys2Proof.Machine
end

