-- ==== Sys2Proof/WellFormed.lean ====
section
/-! DEFINITION. Which words are instructions, class by class (30_encoding R65, R67; D16: strict).
Every term of `Instr` is well formed by its types (R64: each field has exactly its width), so the check
is one of the words, written on the unsigned number the word is and apart from the decoder's table. -/

namespace Sys2Proof

/-- The primary dispatch nibble, nibble 1 (R63). -/
def wordClass (w : Word) : Nat := w.toNat / 4096

/-- Class 0: the whole word must be 0x00E0 or 0x00EE (R65). -/
def class0Ok (w : Word) : Bool := w.toNat == 0x00E0 || w.toNat == 0x00EE

/-- Classes 5 and 9: nibble 4 must be 0 (R65, D16). -/
def lowNibbleZero (w : Word) : Bool := w.toNat % 16 == 0

/-- Class 8: nibble 4 is one of 0, 1, 2, 3, 4, 5, 6, 7, E (R65). -/
def class8Ok (w : Word) : Bool := w.toNat % 16 ≤ 7 || w.toNat % 16 == 0xE

/-- Class E: the low byte is 9E or A1 (R65, R67). -/
def classEOk (w : Word) : Bool := w.toNat % 256 == 0x9E || w.toNat % 256 == 0xA1

/-- Class F: the low byte is one of the nine listed (R67). -/
def classFOk (w : Word) : Bool :=
  [0x07, 0x0A, 0x15, 0x18, 0x1E, 0x29, 0x33, 0x55, 0x65].contains (w.toNat % 256)

/-- The word is an instruction: it is none of the unknown words of R67's table. -/
def wordWellFormed (w : Word) : Bool :=
  match wordClass w with
  | 0x0 => class0Ok w
  | 0x5 => lowNibbleZero w
  | 0x8 => class8Ok w
  | 0x9 => lowNibbleZero w
  | 0xE => classEOk w
  | 0xF => classFOk w
  | _ => true

end Sys2Proof
end

