-- ==== Sys2Proof/Decode.lean ====
section
/-! DEFINITION. The decoder (30_encoding R60 to R68), the table it reads, and the encoder. -/

namespace Sys2Proof

/-! ### Fields (R64, 90_conflicts C1) -/

/-- x = w[11:8], nibble 2. -/
def fieldX (w : Word) : RegNo := w.extractLsb' 8 4

/-- y = w[7:4], nibble 3. -/
def fieldY (w : Word) : RegNo := w.extractLsb' 4 4

/-- n = w[3:0], nibble 4. -/
def fieldN (w : Word) : BitVec 4 := w.extractLsb' 0 4

/-- nn = w[7:0], nibbles 3 and 4. -/
def fieldNN (w : Word) : Byte := w.extractLsb' 0 8

/-- nnn = w[11:0], nibbles 2 to 4. -/
def fieldNNN (w : Word) : Addr12 := w.extractLsb' 0 12

/-! ### The opcode map (R66) -/

/-- One row of R66: its match and mask columns, and the instruction it stands for, with its fields taken
from the word. -/
structure Row where
  pattern : Word
  mask : Word
  build : Word → Instr

/-- "A word matches a row of rule R66 when (w AND mask) = match" (R65). -/
def Row.fits (r : Row) (w : Word) : Bool := w &&& r.mask == r.pattern

/-- Rows 1 to 9 of R66. -/
def rows1to9 : List Row := [
  ⟨0x00E0, 0xFFFF, fun _ => .cls⟩,
  ⟨0x00EE, 0xFFFF, fun _ => .ret⟩,
  ⟨0x1000, 0xF000, fun w => .jp (fieldNNN w)⟩,
  ⟨0x2000, 0xF000, fun w => .call (fieldNNN w)⟩,
  ⟨0x3000, 0xF000, fun w => .seImm (fieldX w) (fieldNN w)⟩,
  ⟨0x4000, 0xF000, fun w => .sneImm (fieldX w) (fieldNN w)⟩,
  ⟨0x5000, 0xF00F, fun w => .seReg (fieldX w) (fieldY w)⟩,
  ⟨0x6000, 0xF000, fun w => .ldImm (fieldX w) (fieldNN w)⟩,
  ⟨0x7000, 0xF000, fun w => .addImm (fieldX w) (fieldNN w)⟩]

/-- Rows 10 to 19 of R66. -/
def rows10to19 : List Row := [
  ⟨0x8000, 0xF00F, fun w => .ldReg (fieldX w) (fieldY w)⟩,
  ⟨0x8001, 0xF00F, fun w => .orReg (fieldX w) (fieldY w)⟩,
  ⟨0x8002, 0xF00F, fun w => .andReg (fieldX w) (fieldY w)⟩,
  ⟨0x8003, 0xF00F, fun w => .xorReg (fieldX w) (fieldY w)⟩,
  ⟨0x8004, 0xF00F, fun w => .addReg (fieldX w) (fieldY w)⟩,
  ⟨0x8005, 0xF00F, fun w => .subReg (fieldX w) (fieldY w)⟩,
  ⟨0x8006, 0xF00F, fun w => .shrReg (fieldX w) (fieldY w)⟩,
  ⟨0x8007, 0xF00F, fun w => .subnReg (fieldX w) (fieldY w)⟩,
  ⟨0x800E, 0xF00F, fun w => .shlReg (fieldX w) (fieldY w)⟩,
  ⟨0x9000, 0xF00F, fun w => .sneReg (fieldX w) (fieldY w)⟩]

/-- Rows 20 to 34 of R66. -/
def rows20to34 : List Row := [
  ⟨0xA000, 0xF000, fun w => .ldI (fieldNNN w)⟩,
  ⟨0xB000, 0xF000, fun w => .jpV0 (fieldNNN w)⟩,
  ⟨0xC000, 0xF000, fun w => .rnd (fieldX w) (fieldNN w)⟩,
  ⟨0xD000, 0xF000, fun w => .drw (fieldX w) (fieldY w) (fieldN w)⟩,
  ⟨0xE09E, 0xF0FF, fun w => .skp (fieldX w)⟩,
  ⟨0xE0A1, 0xF0FF, fun w => .sknp (fieldX w)⟩,
  ⟨0xF007, 0xF0FF, fun w => .ldDT (fieldX w)⟩,
  ⟨0xF00A, 0xF0FF, fun w => .ldKey (fieldX w)⟩,
  ⟨0xF015, 0xF0FF, fun w => .setDT (fieldX w)⟩,
  ⟨0xF018, 0xF0FF, fun w => .setST (fieldX w)⟩,
  ⟨0xF01E, 0xF0FF, fun w => .addI (fieldX w)⟩,
  ⟨0xF029, 0xF0FF, fun w => .ldFont (fieldX w)⟩,
  ⟨0xF033, 0xF0FF, fun w => .bcd (fieldX w)⟩,
  ⟨0xF055, 0xF0FF, fun w => .storeRegs (fieldX w)⟩,
  ⟨0xF065, 0xF0FF, fun w => .loadRegs (fieldX w)⟩]

/-- The complete instruction set, 34 rows (R66). -/
def opcodeMap : List Row := rows1to9 ++ rows10to19 ++ rows20to34

/-- The decoder, a function of the word alone (R61, R65); `none` for an unknown opcode (R67). -/
def decodeWord (w : Word) : Option Instr :=
  (opcodeMap.find? (fun r => r.fits w)).map (fun r => r.build w)

/-! ### Decoding bytes -/

/-- Why bytes are no instruction. -/
inductive DecodeError where
  /-- Fewer than two bytes are left (R62: every instruction is two bytes). -/
  | truncated
  /-- The word matches no pattern (R67). -/
  | unknownOpcode (w : Word)
  deriving DecidableEq, Repr

/-- What the decoder reads from a list of bytes: an instruction and the bytes after it, or a named reason. -/
inductive Decoded where
  | instr (i : Instr) (rest : List Byte)
  | rejected (e : DecodeError)
  deriving DecidableEq, Repr

/-- The word of two consecutive bytes, high byte first (R44). -/
def wordOfBytes (hi lo : Byte) : Word := hi ++ lo

/-- The decoder on any bytes, high byte first (R44, R62, R67). -/
def decode : List Byte → Decoded
  | hi :: lo :: rest =>
    match decodeWord (wordOfBytes hi lo) with
    | some i => .instr i rest
    | none => .rejected (.unknownOpcode (wordOfBytes hi lo))
  | _ => .rejected .truncated

/-! ### The encoder, from the formats of R63 and the patterns of R66 -/

/-- Format NNN: opcode, nnn. -/
def fmtNNN (op : BitVec 4) (nnn : Addr12) : Word := op ++ nnn

/-- Format XNN: opcode, x, nn. -/
def fmtXNN (op : BitVec 4) (x : RegNo) (nn : Byte) : Word := op ++ x ++ nn

/-- Formats XY and XYN: opcode, x, y, and nibble 4 (a secondary opcode or n). -/
def fmtXYN (op : BitVec 4) (x y : RegNo) (n : BitVec 4) : Word := op ++ x ++ y ++ n

/-- The word of an instruction. -/
def encode : Instr → Word
  | .cls => 0x00E0
  | .ret => 0x00EE
  | .jp nnn => fmtNNN 0x1 nnn
  | .call nnn => fmtNNN 0x2 nnn
  | .seImm x nn => fmtXNN 0x3 x nn
  | .sneImm x nn => fmtXNN 0x4 x nn
  | .seReg x y => fmtXYN 0x5 x y 0x0
  | .ldImm x nn => fmtXNN 0x6 x nn
  | .addImm x nn => fmtXNN 0x7 x nn
  | .ldReg x y => fmtXYN 0x8 x y 0x0
  | .orReg x y => fmtXYN 0x8 x y 0x1
  | .andReg x y => fmtXYN 0x8 x y 0x2
  | .xorReg x y => fmtXYN 0x8 x y 0x3
  | .addReg x y => fmtXYN 0x8 x y 0x4
  | .subReg x y => fmtXYN 0x8 x y 0x5
  | .shrReg x y => fmtXYN 0x8 x y 0x6
  | .subnReg x y => fmtXYN 0x8 x y 0x7
  | .shlReg x y => fmtXYN 0x8 x y 0xE
  | .sneReg x y => fmtXYN 0x9 x y 0x0
  | .ldI nnn => fmtNNN 0xA nnn
  | .jpV0 nnn => fmtNNN 0xB nnn
  | .rnd x nn => fmtXNN 0xC x nn
  | .drw x y n => fmtXYN 0xD x y n
  | .skp x => fmtXNN 0xE x 0x9E
  | .sknp x => fmtXNN 0xE x 0xA1
  | .ldDT x => fmtXNN 0xF x 0x07
  | .ldKey x => fmtXNN 0xF x 0x0A
  | .setDT x => fmtXNN 0xF x 0x15
  | .setST x => fmtXNN 0xF x 0x18
  | .addI x => fmtXNN 0xF x 0x1E
  | .ldFont x => fmtXNN 0xF x 0x29
  | .bcd x => fmtXNN 0xF x 0x33
  | .storeRegs x => fmtXNN 0xF x 0x55
  | .loadRegs x => fmtXNN 0xF x 0x65

/-- The high byte of a word, the one at the lower address (R44). -/
def highByte (w : Word) : Byte := w.extractLsb' 8 8

/-- The low byte of a word. -/
def lowByte (w : Word) : Byte := w.extractLsb' 0 8

/-- The two bytes of a word as memory holds them, high byte first (R44). -/
def bytesOfWord (w : Word) : List Byte := [highByte w, lowByte w]

/-- The instruction the decoder reads from a table word `w` of `nbits` bits (bit 0 the least significant;
the bits above `nbits` are 0), laid out as the hardware stores it. -/
def decodeTableWord (nbits w : Nat) : Option Instr :=
  match decode (bytesOfWord (BitVec.ofNat 16 (w % 2 ^ nbits))) with
  | .instr i _ => some i
  | .rejected _ => none

end Sys2Proof
end

