-- ==== Sys2Proof/Machine/Fetch.lean ====
section
/-! DEFINITION. The fetch of a STEP and what surrounds the handler (20_memory R48, 30_encoding R60, R68). -/

namespace Sys2Proof.Machine

/-- `Fetch(pc)`: the word at pc, high byte first; `none` where pc > 0xFFE raises FETCH_RANGE (R44, R48). -/
def fetchWord (s : State) : Option Word :=
  if s.pc.toNat > 0xFFE then none
  else some (wordOfBytes (s.mem.read s.pc.toNat) (s.mem.read (s.pc.toNat + 1)))

/-- After the fetch: `opcode <- w`, `pc <- A + 2`; the byte supplied with this STEP stands at the input port and
the event port shows no event yet (R60, R176, R191). -/
def latch (rnd : Byte) (w : Word) (s : State) : State :=
  { s with opcode := w, pc := s.pc + 2, rnd := rnd, diag := none }

/-- `emit diag(UNKNOWN_OPCODE, w, A)` (R68, R176). -/
def emitUnknown (w A : Word) (s : State) : State := { s with diag := some ⟨w, A⟩ }

/-- A STEP that emits no event shows none at the port (R173, R176; log entry 4). -/
def noEvent (s : State) : State := { s with diag := none }

end Sys2Proof.Machine
end

