-- ==== Sys2Proof/Machine/HostOps.lean ====
section
/-! DEFINITION. The host's operations but STEP (60_exceptions R183, R188 to R190; 70_reset R200 to R202).
RESET and LOAD are the only exits from a fault (R173). -/

namespace Sys2Proof.Machine

/-- RESET (R200): every item of the machine's state at its reset value, and the event port cleared; what the
environment holds (`schedule`, `rnd`, `draws`) is not the machine's and stays (log entry 18). -/
def opReset (s : State) : State :=
  { State.reset with rnd := s.rnd, draws := s.draws, schedule := s.schedule }

/-- LOAD(bytes) (R201, R202): RESET, then the bytes at 0x200 upward; a sequence longer than 3584 bytes
writes none of them and sets `fault` (D24; log entry 19). -/
def opLoad (bytes : List Byte) (s : State) : State :=
  let s0 := opReset s
  if bytes.length ≤ Config.maxProgram then { s0 with mem := s0.mem.writeList Config.programBase bytes }
  else s0.setFault .loadTooLarge

/-- A timer goes down by 1 if it is above 0 (R183). -/
def countDown (b : Byte) : Byte := if b.toNat > 0 then b - 1 else b

/-- TICK (R183); nothing while faulted (R173). -/
def opTick (s : State) : State :=
  if s.fault = .none then { s with DT := countDown s.DT, ST := countDown s.ST } else s

/-- SETKEYS(k) (R188), faulted or not. -/
def opSetKeys (k : Vector Bool 16) (s : State) : State := { s with key := k }

/-- CLEARDIRTY (R189), faulted or not. -/
def opClearDirty (s : State) : State := { s with dirty := false }

/-- The observation ports (R190). -/
def observe (s : State) : Observation := { disp := s.disp, dirty := s.dirty, fault := s.fault, diag := s.diag }

end Sys2Proof.Machine
end

