-- ==== Sys2Proof/Machine/Cycle.lean ====
section
/-! DEFINITION. STEP(rnd), the cycle of 30_encoding R60, and the host's operations as one function. -/

namespace Sys2Proof.Machine

/-- STEP(rnd) (R60): the faulted test, the fetch, the latch and the advance, the decode, and then the one
handler or the event of an unknown opcode (R178 for the order). -/
def opStep (rnd : Byte) (s : State) : Host.Outcome State Fault Refusal :=
  if s.fault = .none then
    match fetchWord s with
    | none => takeFault .fetchRange (noEvent s)
    | some w =>
      match decodeWord w with
      | some i => exec i (latch rnd w s)
      | none => .next (emitUnknown w s.pc (latch rnd w s))
  else .next (noEvent s)

/-- One operation of the host (R5). -/
def perform (op : HostOp) (s : State) : Host.Outcome State Fault Refusal :=
  match op with
  | .reset => .next (opReset s)
  | .load bytes => .next (opLoad bytes s)
  | .step rnd => opStep rnd s
  | .tick => .next (opTick s)
  | .setKeys k => .next (opSetKeys k s)
  | .clearDirty => .next (opClearDirty s)

/-- The next operation of the schedule; when none is listed, a STEP with a free random byte (R187, R191, D2,
D18; log entries 2, 3). -/
def nextOperation (s : State) : Host.Outcome State Fault Refusal :=
  match s.schedule with
  | [] => opStep (Config.rnd s.draws) s
  | op :: rest => perform op { s with schedule := rest }

/-- Where `placeWord` puts an instruction: at pc, or at the program base where nothing can be fetched at pc. -/
def placeAddr (s : State) : Word := if s.pc.toNat > 0xFFE then 0x0200 else s.pc

/-- The word, high byte first, at the address the next STEP fetches from, with a STEP next on a machine that
runs (log entry 12). -/
def placeWord (w : Word) (s : State) : State :=
  { s with
    mem := s.mem.writeList (placeAddr s).toNat (bytesOfWord w)
    pc := placeAddr s
    fault := .none
    schedule := [] }

end Sys2Proof.Machine
end

