-- ==== Sys2Proof/Machine/Step.lean ====
section
/-! DEFINITION. One step of the whole machine: one operation of the host, a STEP unless the schedule names
another (00_scope R5, 60_exceptions R187). -/

namespace Sys2Proof.Machine

/-- One step. -/
def step (s : State) : Host.Outcome State Fault Refusal := nextOperation s

/-- `s` with an instruction of the opcode table stored where `step` fetches its next one: `w` is its word, bit 0
the least significant, the bits above `nbits` 0. -/
def State.withFetchWord (s : State) (nbits w : Nat) : State := placeWord (BitVec.ofNat 16 (w % 2 ^ nbits)) s

end Sys2Proof.Machine
end

