-- ==== Sys2Proof/Safety.lean ====
section
/-! DEFINITION. The terms the claims use: a running machine, the invariants of every step, what a program can
see of the state, and the sprite bit that lies over a pixel. -/

namespace Sys2Proof.Machine

/-- The machine is running: no fault is recorded (R23, R192). A claim about a program takes this as something
to prove of every state of the run (R173). -/
abbrev State.Running (s : State) : Prop := s.fault = .none

/-- Memory is in its canonical form (log entry 13). -/
abbrev State.MemoryCanonical (s : State) : Prop := s.mem.wf

/-- The bounds of R14 and R80: pc never passes 0x10FE, a return address never passes 0x1000. -/
abbrev State.ControlBounded (s : State) : Prop :=
  s.pc.toNat ≤ 0x10FE ∧ ∀ k : Fin 16, s.stack[k].toNat ≤ 0x1000

/-- A faulted machine shows no diagnostic event (R172, R173). -/
abbrev State.FaultQuiet (s : State) : Prop := s.fault ≠ .none → s.diag = none

/-- The invariant of every step. -/
abbrev State.Inv (s : State) : Prop := s.MemoryCanonical ∧ s.ControlBounded ∧ s.FaultQuiet

/-- What an instruction can depend on: the state less the sound timer (R18: no instruction reads it), `dirty`
(R21), the `opcode` latch (R22) and the event port (R176). -/
def State.programView (s : State) : State := { s with ST := 0, dirty := false, opcode := 0, diag := none }

/-- Two states a program cannot tell apart. -/
abbrev State.SameToProgram (s t : State) : Prop := s.programView = t.programView

/-- The bit of an n-row sprite at `base`, drawn at origin (x0, y0), that lies over pixel (px, py); false where
the sprite does not reach (R140: row r at base + r, bit 7 at the sprite's own column 0). -/
def spriteBit (m : Memory) (base n x0 y0 px py : Nat) : Bool :=
  decide (x0 ≤ px ∧ px < x0 + 8 ∧ y0 ≤ py ∧ py < y0 + n) && (m.read (base + (py - y0))).getLsbD (7 - (px - x0))

/-- The sprite bit over pixel (px, py) of `Dxyn` in state s: origin (V[x] mod 64, V[y] mod 32) (R142). -/
def State.spriteAt (s : State) (x y : RegNo) (n : BitVec 4) (px py : Nat) : Bool :=
  spriteBit s.mem s.I.toNat n.toNat ((s.reg x).toNat % 64) ((s.reg y).toNat % 32) px py

end Sys2Proof.Machine
end

