-- ==== Sys2Proof/Certificates/Slice0/Obligations.lean ====
section
/-! DEFINITION. The statements for the provers. Each docstring names the rule of spec/ it formalises. In every
statement about `exec`, the state s is the one the handler starts from: pc = A + 2 (R60). `t = { s with f := t.f }`
says that every field of the state but f is unchanged, all of memory among them. -/

open Sys2Proof Sys2Proof.Machine

/-! ### Encoding (30_encoding) -/

/-- Words of R66's rows, with the fields the examples of R81, R82, R84, R87, R102, R103, R110, R113, R122, R123,
R125, R142, R150 and R152 give them; and two words that are no instruction: 0x0FFF, the source's own example (R67, R68),
and 0x5121, whose nibble 4 the spec's decision D16 makes count (R65, R67, 95 row T7; log entry 10). -/
def Obligations.DecodesSpecExampleWords : Prop :=
  decodeWord 0x00E0 = some .cls ∧ decodeWord 0x00EE = some .ret ∧ decodeWord 0x1204 = some (.jp 0x204) ∧
  decodeWord 0x220A = some (.call 0x20A) ∧ decodeWord 0x332A = some (.seImm 3 0x2A) ∧
  decodeWord 0x9120 = some (.sneReg 1 2) ∧ decodeWord 0x6A3C = some (.ldImm 0xA 0x3C) ∧
  decodeWord 0x7002 = some (.addImm 0 2) ∧ decodeWord 0x8126 = some (.shrReg 1 2) ∧
  decodeWord 0xC30F = some (.rnd 3 0x0F) ∧ decodeWord 0xF429 = some (.ldFont 4) ∧
  decodeWord 0xF133 = some (.bcd 1) ∧ decodeWord 0xF155 = some (.storeRegs 1) ∧
  decodeWord 0xD012 = some (.drw 0 1 2) ∧ decodeWord 0xE59E = some (.skp 5) ∧
  decodeWord 0xF20A = some (.ldKey 2) ∧ decodeWord 0x0FFF = none ∧ decodeWord 0x5121 = none

/-- R44, R62, R64, R66: the bytes of every instruction, whatever follows them, decode to it, with every field at
every value. -/
def Obligations.DecodeOfEncodeIsTheInstruction : Prop :=
  ∀ (i : Instr) (rest : List Byte), decode (bytesOfWord (encode i) ++ rest) = .instr i rest

/-- R61, R64, R66: a word that decodes is the word of its instruction, so no two words decode alike. -/
def Obligations.EncodeOfDecodeIsTheWord : Prop :=
  ∀ (w : Word) (i : Instr), decodeWord w = some i → encode i = w

/-- R61: the patterns of the table are pairwise disjoint, so at most one matches a word. -/
def Obligations.AtMostOnePatternMatches : Prop :=
  ∀ (w : Word), (opcodeMap.filter (fun r => w &&& r.mask == r.pattern)).length ≤ 1

/-- R65: a word is decoded by the row it matches under that row's mask; and the words that match some row are those
the class-by-class check names. That check is the strict reading, in which nibble 4 counts in classes 5 and 9: the spec's
decision D16 (log entry 10). -/
def Obligations.MaskDecodingIsTheClassCheck : Prop :=
  (∀ (w : Word) (i : Instr), decodeWord w = some i ↔ ∃ r ∈ opcodeMap, w &&& r.mask = r.pattern ∧ r.build w = i) ∧
  (∀ (w : Word), (decodeWord w).isSome = wordWellFormed w)

/-! ### The step cycle (30_encoding R60, R68; 20_memory R44, R48; 60_exceptions R173) -/

/-- R60: on a running machine whose word at pc decodes to i, a STEP is exec of i after `opcode <- w` and
`pc <- A + 2`. The model adds the input port `rnd` (the free byte when nothing is scheduled, the supplied byte when
STEP(r) is) and withdraws the event port (the spec's decisions D2, D18; log entries 2, 3, 4). -/
def Obligations.StepRunsTheDecodedInstruction : Prop :=
  ∀ (s : State) (i : Instr) (w : Word), s.Running → s.pc.toNat ≤ 0xFFE →
    w = wordOfBytes (s.mem.read s.pc.toNat) (s.mem.read (s.pc.toNat + 1)) → decodeWord w = some i →
    (s.schedule = [] →
      step s = exec i { s with opcode := w, pc := s.pc + 2, rnd := Config.rnd s.draws, diag := none }) ∧
    (∀ (r : Byte) (rest : List HostOp), s.schedule = .step r :: rest →
      step s = exec i { s with opcode := w, pc := s.pc + 2, rnd := r, diag := none, schedule := rest })

/-- R68: on a running machine whose word at pc is none of the instructions, a STEP advances pc by 2, latches the word,
emits the event, and changes nothing else (the form of the event is the spec's decision D17; its port, log entry 4). -/
def Obligations.UnknownOpcodeIsReportedAndSkipped : Prop :=
  ∀ (s : State) (r : Byte) (w : Word), s.Running → s.pc.toNat ≤ 0xFFE →
    w = wordOfBytes (s.mem.read s.pc.toNat) (s.mem.read (s.pc.toNat + 1)) → wordWellFormed w = false →
    opStep r s = .next { s with opcode := w, pc := s.pc + 2, rnd := r, diag := some ⟨w, s.pc⟩ }

/-- R44, R48: the fetch is big-endian; with pc > 0xFFE it raises FETCH_RANGE (the spec's decision D6) with pc and `opcode` unchanged, and the
STEP changes nothing but `fault` (and withdraws the event, log entry 4). -/
def Obligations.FetchIsBigEndianAndRangeChecked : Prop :=
  ∀ (s : State),
    (s.pc.toNat ≤ 0xFFE → ∃ w, fetchWord s = some w ∧
      w.toNat = 256 * (s.mem.read s.pc.toNat).toNat + (s.mem.read (s.pc.toNat + 1)).toNat) ∧
    (0xFFE < s.pc.toNat → fetchWord s = none ∧
      ∀ r, s.Running → opStep r s = .next { s with fault := .fetchRange, diag := none })

/-- R173: on a faulted machine STEP and TICK change nothing (the event port of a STEP shows no event), SETKEYS and
CLEARDIRTY act as usual, and RESET and LOAD are the ways on (the spec's decisions D3, D25). -/
def Obligations.FaultedMachineOnlyListens : Prop :=
  ∀ (s : State), s.fault ≠ .none →
    (∀ r, opStep r s = .next { s with diag := none }) ∧ opTick s = s ∧
    (∀ k, opSetKeys k s = { s with key := k }) ∧ opClearDirty s = { s with dirty := false } ∧
    (opReset s).fault = .none ∧
    (∀ bytes : List Byte, (opLoad bytes s).fault = if bytes.length ≤ 3584 then .none else .loadTooLarge)

/-- R5, R187, R200 to R202, R183, R188, R189: a step performs the operation the host's schedule names, on the state from
which that operation is taken off (the order is the host's, the spec's decision D2; log entry 3). -/
def Obligations.ScheduledOperationIsPerformed : Prop :=
  ∀ (s : State) (rest : List HostOp),
    (s.schedule = .reset :: rest → step s = .next (opReset { s with schedule := rest })) ∧
    (∀ bytes, s.schedule = .load bytes :: rest → step s = .next (opLoad bytes { s with schedule := rest })) ∧
    (∀ r, s.schedule = .step r :: rest → step s = opStep r { s with schedule := rest }) ∧
    (s.schedule = .tick :: rest → step s = .next (opTick { s with schedule := rest })) ∧
    (∀ k, s.schedule = .setKeys k :: rest → step s = .next { s with key := k, schedule := rest }) ∧
    (s.schedule = .clearDirty :: rest → step s = .next { s with dirty := false, schedule := rest })

/-- R170, R172, R173, R177: nothing stops the machine: every operation, in every state, answers a next state, because
a fatal condition is recorded in `fault` and an unknown opcode continues (the spec's decision D3; log entry 5). -/
def Obligations.EveryStepAnswersNext : Prop :=
  (∀ s : State, ∃ t, step s = .next t) ∧ ∀ (i : Instr) (s : State), ∃ t, exec i s = .next t

/-- R51: two bytes stored by `Fx55` at the next instruction's address are the word the next STEP fetches (the spec's
decision D30). -/
def Obligations.NextFetchSeesTheStore : Prop :=
  ∀ (s : State), s.MemoryCanonical → s.pc = s.I → s.I.toNat ≤ 0xFFE →
    ∃ t, exec (.storeRegs 1) s = .next t ∧ fetchWord t = some (wordOfBytes (s.reg 0) (s.reg 1))

/-! ### Control flow (40_control_flow) -/

/-- R80: `00EE` pops; at sp = 0 it raises STACK_UNDERFLOW before any write (the spec's
decision D4). -/
def Obligations.ReturnPopsOrUnderflows : Prop :=
  ∀ (s : State),
    (∀ k : Fin 16, s.sp.val = k.val + 1 →
      ∃ t, exec .ret s = .next t ∧ t = { s with pc := s.stack[k], sp := t.sp } ∧ t.sp.val = k.val) ∧
    (s.sp = 0 → exec .ret s = .next { s with fault := .stackUnderflow })

/-- R81: `1nnn` sets pc to nnn and nothing else; on a running machine a jump to self, once executed, is a fixed point of
STEP (but for the input port, log entry 2). -/
def Obligations.JumpSetsPcAndSelfJumpIsFixed : Prop :=
  (∀ (nnn : Addr12) (s : State), ∃ t, exec (.jp nnn) s = .next t ∧ t = { s with pc := t.pc } ∧ t.pc.toNat = nnn.toNat) ∧
  (∀ (nnn : Addr12) (s : State) (r : Byte), s.Running → s.pc.toNat = nnn.toNat → s.pc.toNat ≤ 0xFFE →
    wordOfBytes (s.mem.read s.pc.toNat) (s.mem.read (s.pc.toNat + 1)) = encode (.jp nnn) →
    s.opcode = encode (.jp nnn) → s.diag = none → opStep r s = .next { s with rnd := r })

/-- R82: `2nnn` pushes the advanced pc and jumps; at sp = 16 it raises STACK_OVERFLOW before any write (the
spec's decision D4). -/
def Obligations.CallPushesOrOverflows : Prop :=
  ∀ (nnn : Addr12) (s : State),
    (∀ k : Fin 16, s.sp.val = k.val →
      ∃ t, exec (.call nnn) s = .next t ∧ t = { s with pc := t.pc, sp := t.sp, stack := t.stack } ∧
        t.pc.toNat = nnn.toNat ∧ t.sp.val = k.val + 1 ∧
        ∀ j : Fin 16, t.stack[j] = if j = k then s.pc else s.stack[j]) ∧
    (s.sp = 16 → exec (.call nnn) s = .next { s with fault := .stackOverflow })

/-- R80, R82 (95 row S4): `2nnn` and then `00EE` bring pc back to the address after the call and sp back to its value,
leaving only the stack entry behind. -/
def Obligations.CallThenReturnComesBack : Prop :=
  ∀ (nnn : Addr12) (s : State) (k : Fin 16), s.sp.val = k.val →
    ∃ t u, exec (.call nnn) s = .next t ∧ (∀ p : Word, ∃ v, exec .ret { t with pc := p } = .next v ∧ v = u) ∧
      u = { s with stack := u.stack } ∧ ∀ j : Fin 16, u.stack[j] = if j = k then s.pc else s.stack[j]

/-- R83: `Bnnn` sets pc to nnn + V[0], a sum that 16 bits hold and that is not reduced modulo 0x1000 (the
spec's decision D9). -/
def Obligations.JumpWithOffsetAddsV0 : Prop :=
  ∀ (nnn : Addr12) (s : State),
    ∃ t, exec (.jpV0 nnn) s = .next t ∧ t = { s with pc := t.pc } ∧ t.pc.toNat = nnn.toNat + (s.reg 0).toNat

/-- R84, R85: `3xnn` and `4xnn` skip two bytes when V[x] = nn, and when V[x] != nn; they change nothing but pc. -/
def Obligations.ImmediateSkips : Prop :=
  ∀ (x : RegNo) (nn : Byte) (s : State),
    (∃ t, exec (.seImm x nn) s = .next t ∧ t = { s with pc := if s.reg x = nn then s.pc + 2 else s.pc }) ∧
    (∃ t, exec (.sneImm x nn) s = .next t ∧ t = { s with pc := if s.reg x = nn then s.pc else s.pc + 2 })

/-- R86, R87: `5xy0` and `9xy0` skip two bytes when V[x] = V[y], and when V[x] != V[y]; x = y always skips with `5xy0`
and never with `9xy0`. -/
def Obligations.RegisterSkips : Prop :=
  ∀ (x y : RegNo) (s : State),
    (∃ t, exec (.seReg x y) s = .next t ∧ t = { s with pc := if s.reg x = s.reg y then s.pc + 2 else s.pc } ∧
      (x = y → t.pc = s.pc + 2)) ∧
    (∃ t, exec (.sneReg x y) s = .next t ∧ t = { s with pc := if s.reg x = s.reg y then s.pc else s.pc + 2 } ∧
      (x = y → t.pc = s.pc))

/-! ### The register unit (41_register_alu) -/

/-- R102, R104: `6xnn` and `8xy0` write V[x] and nothing else. -/
def Obligations.RegisterLoads : Prop :=
  (∀ (x : RegNo) (nn : Byte) (s : State), ∃ t, exec (.ldImm x nn) s = .next t ∧ t = { s with V := t.V } ∧
    ∀ r, t.reg r = if r = x then nn else s.reg r) ∧
  (∀ (x y : RegNo) (s : State), ∃ t, exec (.ldReg x y) s = .next t ∧ t = { s with V := t.V } ∧
    ∀ r, t.reg r = if r = x then s.reg y else s.reg r)

/-- R103: `7xnn` adds modulo 256 and writes no flag: VF changes only as the destination. -/
def Obligations.AddImmediateWrapsWithoutFlag : Prop :=
  ∀ (x : RegNo) (nn : Byte) (s : State), ∃ t, exec (.addImm x nn) s = .next t ∧ t = { s with V := t.V } ∧
    (t.reg x).toNat = ((s.reg x).toNat + nn.toNat) % 256 ∧ ∀ r, r ≠ x → t.reg r = s.reg r

/-- R105, R106, R107: bit k of the result is the OR, AND, XOR of the bits k, and no other register changes, VF
included. -/
def Obligations.BitwiseLogicActsBitByBit : Prop :=
  ∀ (x y : RegNo) (s : State),
    (∃ t, exec (.orReg x y) s = .next t ∧ t = { s with V := t.V } ∧ (∀ r, r ≠ x → t.reg r = s.reg r) ∧
      ∀ k, (t.reg x).getLsbD k = ((s.reg x).getLsbD k || (s.reg y).getLsbD k)) ∧
    (∃ t, exec (.andReg x y) s = .next t ∧ t = { s with V := t.V } ∧ (∀ r, r ≠ x → t.reg r = s.reg r) ∧
      ∀ k, (t.reg x).getLsbD k = ((s.reg x).getLsbD k && (s.reg y).getLsbD k)) ∧
    (∃ t, exec (.xorReg x y) s = .next t ∧ t = { s with V := t.V } ∧ (∀ r, r ≠ x → t.reg r = s.reg r) ∧
      ∀ k, (t.reg x).getLsbD k = ((s.reg x).getLsbD k ^^ (s.reg y).getLsbD k))

/-- R108, with its table of corner cases: the carry to VF, then the sum to V[x]. The cases where x or y is
VF rest on the spec's decision D14 (log entry 6). -/
def Obligations.AddWithCarry : Prop :=
  ∀ (x y : RegNo) (s : State) (a b F : Nat), a = (s.reg x).toNat → b = (s.reg y).toNat → F = (s.reg VF).toNat →
    ∃ t, exec (.addReg x y) s = .next t ∧ t = { s with V := t.V } ∧ (∀ r, r ≠ x → r ≠ VF → t.reg r = s.reg r) ∧
      (x ≠ VF → y ≠ VF → (t.reg VF).toNat = (if a + b > 255 then 1 else 0) ∧ (t.reg x).toNat = (a + b) % 256) ∧
      (x = VF → y ≠ VF → (t.reg VF).toNat = ((if F + b > 255 then 1 else 0) + b) % 256) ∧
      (x ≠ VF → y = VF → (t.reg VF).toNat = (if a + F > 255 then 1 else 0) ∧
        (t.reg x).toNat = (a + (if a + F > 255 then 1 else 0)) % 256) ∧
      (x = VF → y = VF → (t.reg VF).toNat = if F ≥ 128 then 2 else 0)

/-- R109, with its table: VF is 1 when there is no borrow, then V[x] gets the difference modulo 256. The cases where x or y is
VF rest on the spec's decision D14 (log entry 6). -/
def Obligations.SubtractWithBorrow : Prop :=
  ∀ (x y : RegNo) (s : State) (a b F : Nat), a = (s.reg x).toNat → b = (s.reg y).toNat → F = (s.reg VF).toNat →
    ∃ t, exec (.subReg x y) s = .next t ∧ t = { s with V := t.V } ∧ (∀ r, r ≠ x → r ≠ VF → t.reg r = s.reg r) ∧
      (x ≠ VF → y ≠ VF → (t.reg VF).toNat = (if a ≥ b then 1 else 0) ∧
        (t.reg x).toNat = if a ≥ b then a - b else 256 + a - b) ∧
      (x = VF → y ≠ VF → (t.reg VF).toNat = (256 + (if F ≥ b then 1 else 0) - b) % 256) ∧
      (x ≠ VF → y = VF → (t.reg VF).toNat = (if a ≥ F then 1 else 0) ∧
        (t.reg x).toNat = (256 + a - (if a ≥ F then 1 else 0)) % 256) ∧
      (x = VF → y = VF → (t.reg VF).toNat = 0)

/-- R110, with its table: bit 0 of V[y] to VF, then V[y] div 2 to V[x]; V[y] is the source, not V[x]
(the spec's decision D15, log entry 7). The cases where x or y is VF rest on its decision D14 (log entry 6). -/
def Obligations.ShiftRightTakesVy : Prop :=
  ∀ (x y : RegNo) (s : State) (b F : Nat), b = (s.reg y).toNat → F = (s.reg VF).toNat →
    ∃ t, exec (.shrReg x y) s = .next t ∧ t = { s with V := t.V } ∧ (∀ r, r ≠ x → r ≠ VF → t.reg r = s.reg r) ∧
      (x ≠ VF → y ≠ VF → (t.reg VF).toNat = b % 2 ∧ (t.reg x).toNat = b / 2) ∧
      (x = VF → y ≠ VF → (t.reg VF).toNat = b / 2) ∧
      (x ≠ VF → y = VF → (t.reg VF).toNat = F % 2 ∧ (t.reg x).toNat = 0) ∧
      (x = VF → y = VF → (t.reg VF).toNat = 0)

/-- R111, with its table: VF is 1 when there is no borrow, then V[x] gets V[y] - V[x] modulo 256 (the
spec's decision D15, log entry 7). The cases where x or y is VF rest on its decision D14 (log entry 6). -/
def Obligations.ReverseSubtractWithBorrow : Prop :=
  ∀ (x y : RegNo) (s : State) (a b F : Nat), a = (s.reg x).toNat → b = (s.reg y).toNat → F = (s.reg VF).toNat →
    ∃ t, exec (.subnReg x y) s = .next t ∧ t = { s with V := t.V } ∧ (∀ r, r ≠ x → r ≠ VF → t.reg r = s.reg r) ∧
      (x ≠ VF → y ≠ VF → (t.reg VF).toNat = (if b ≥ a then 1 else 0) ∧
        (t.reg x).toNat = if b ≥ a then b - a else 256 + b - a) ∧
      (x = VF → y ≠ VF → (t.reg VF).toNat = (256 + b - (if b ≥ F then 1 else 0)) % 256) ∧
      (x ≠ VF → y = VF → (t.reg VF).toNat = (if F ≥ a then 1 else 0) ∧
        (t.reg x).toNat = (256 + (if F ≥ a then 1 else 0) - a) % 256) ∧
      (x = VF → y = VF → (t.reg VF).toNat = 0)

/-- R112, with its table: bit 7 of V[y] to VF, then twice V[y] modulo 256 to V[x] (the spec's
decision D15, log entry 7). The cases where x or y is VF rest on its decision D14 (log entry 6). -/
def Obligations.ShiftLeftTakesVy : Prop :=
  ∀ (x y : RegNo) (s : State) (b F : Nat), b = (s.reg y).toNat → F = (s.reg VF).toNat →
    ∃ t, exec (.shlReg x y) s = .next t ∧ t = { s with V := t.V } ∧ (∀ r, r ≠ x → r ≠ VF → t.reg r = s.reg r) ∧
      (x ≠ VF → y ≠ VF → (t.reg VF).toNat = b / 128 ∧ (t.reg x).toNat = 2 * b % 256) ∧
      (x = VF → y ≠ VF → (t.reg VF).toNat = 2 * b % 256) ∧
      (x ≠ VF → y = VF → (t.reg VF).toNat = F / 128 ∧ (t.reg x).toNat = 2 * (F / 128)) ∧
      (x = VF → y = VF → (t.reg VF).toNat = 2 * (F / 128))

/-- R113: `Cxnn` writes rnd AND nn to V[x], whatever byte was supplied, so the result has no bit outside nn (the byte
as an unconstrained input is the spec's decision D18). The model's
counter `draws` advances (log entry 2). -/
def Obligations.RandomIsMaskedByNn : Prop :=
  ∀ (x : RegNo) (nn : Byte) (s : State), ∃ t, exec (.rnd x nn) s = .next t ∧
    t = { s with V := t.V, draws := s.draws + 1 } ∧ (∀ r, t.reg r = if r = x then s.rnd &&& nn else s.reg r) ∧
    t.reg x &&& ~~~nn = 0

/-- R113, R191: the byte supplied with a STEP is ignored by every instruction but `Cxnn` (the spec's
decision D18; the port is log entry 2). -/
def Obligations.RandomByteOnlyReachesRnd : Prop :=
  ∀ (i : Instr) (s : State) (r : Byte), (∀ x nn, i ≠ .rnd x nn) →
    ∃ t, exec i s = .next t ∧ exec i { s with rnd := r } = .next { t with rnd := r }

/-- R11: VF is written as a side effect only by `8xy4 8xy5 8xy6 8xy7 8xyE Dxyn`, and then with 0 or 1 (unless it is the
destination x too, or the draw faults); every other instruction that changes it names it as its destination.
The result a flag instruction leaves in VF as its destination rests on the spec's decision D14 (log entry 6). -/
def Obligations.OnlyFlagInstructionsWriteVF : Prop :=
  ∀ (i : Instr) (s t : State), exec i s = .next t → t.reg VF ≠ s.reg VF →
    ((∃ x y, x ≠ VF ∧ (i = .addReg x y ∨ i = .subReg x y ∨ i = .shrReg x y ∨ i = .subnReg x y ∨ i = .shlReg x y)) ∨
        (∃ x y n, i = .drw x y n)) ∧ ((t.reg VF).toNat = 0 ∨ (t.reg VF).toNat = 1) ∨
    (∃ y, i = .addReg VF y ∨ i = .subReg VF y ∨ i = .shrReg VF y ∨ i = .subnReg VF y ∨ i = .shlReg VF y ∨
      i = .ldReg VF y ∨ i = .orReg VF y ∨ i = .andReg VF y ∨ i = .xorReg VF y) ∨
    (∃ nn, i = .ldImm VF nn ∨ i = .addImm VF nn ∨ i = .rnd VF nn) ∨
    i = .ldDT VF ∨ i = .ldKey VF ∨ i = .loadRegs VF

/-! ### The index register and memory (42_index_memory) -/

/-- R120, R122: `Annn` and `Fx29` (5 * V[x], no masking) write I and nothing else. -/
def Obligations.IndexLoads : Prop :=
  (∀ (nnn : Addr12) (s : State), ∃ t, exec (.ldI nnn) s = .next t ∧ t = { s with I := t.I } ∧ t.I.toNat = nnn.toNat) ∧
  (∀ (x : RegNo) (s : State), ∃ t, exec (.ldFont x) s = .next t ∧ t = { s with I := t.I } ∧
    t.I.toNat = 5 * (s.reg x).toNat)

/-- R121: `Fx1E` adds V[x] to I modulo 65536, with no flag, and changes nothing else (the width and the missing flag are
the spec's decision D8). -/
def Obligations.AddToIndexWraps : Prop :=
  ∀ (x : RegNo) (s : State), ∃ t, exec (.addI x) s = .next t ∧ t = { s with I := t.I } ∧
    t.I.toNat = (s.I.toNat + (s.reg x).toNat) % 65536

/-- R123: `Fx33` in range stores hundreds, tens and ones of V[x] at I, I + 1, I + 2 and changes nothing else (the order of
the digits is the spec's decision D21, log entry 8). -/
def Obligations.BcdStoresThreeDigits : Prop :=
  ∀ (x : RegNo) (s : State), s.MemoryCanonical → s.I.toNat + 2 ≤ 0xFFF →
    ∃ t, exec (.bcd x) s = .next t ∧ t = { s with mem := t.mem } ∧
      (t.mem.read s.I.toNat).toNat = (s.reg x).toNat / 100 ∧
      (t.mem.read (s.I.toNat + 1)).toNat = (s.reg x).toNat / 10 % 10 ∧
      (t.mem.read (s.I.toNat + 2)).toNat = (s.reg x).toNat % 10 ∧
      ∀ a, a < s.I.toNat ∨ s.I.toNat + 2 < a → t.mem.read a = s.mem.read a

/-- R125: `Fx55` in range stores V[0] to V[x] at I upward, then advances I by x + 1; nothing else changes. -/
def Obligations.StoreRegistersWritesTheRun : Prop :=
  ∀ (x : RegNo) (s : State), s.MemoryCanonical → s.I.toNat + x.toNat ≤ 0xFFF →
    ∃ t, exec (.storeRegs x) s = .next t ∧ t = { s with mem := t.mem, I := t.I } ∧
      t.I.toNat = s.I.toNat + x.toNat + 1 ∧
      (∀ k : RegNo, k.toNat ≤ x.toNat → t.mem.read (s.I.toNat + k.toNat) = s.reg k) ∧
      ∀ a, a < s.I.toNat ∨ s.I.toNat + x.toNat < a → t.mem.read a = s.mem.read a

/-- R126: `Fx65` in range loads V[0] to V[x] from I upward, then advances I by x + 1; the registers above x and memory
keep their values. -/
def Obligations.LoadRegistersReadsTheRun : Prop :=
  ∀ (x : RegNo) (s : State), s.I.toNat + x.toNat ≤ 0xFFF →
    ∃ t, exec (.loadRegs x) s = .next t ∧ t = { s with V := t.V, I := t.I } ∧
      t.I.toNat = s.I.toNat + x.toNat + 1 ∧
      ∀ k : RegNo, t.reg k = if k.toNat ≤ x.toNat then s.mem.read (s.I.toNat + k.toNat) else s.reg k

/-- R47: a data access whose last address passes 0xFFF raises MEM_RANGE before anything is read or
written (the spec's decision D5). -/
def Obligations.OutOfRangeAccessFaultsFirst : Prop :=
  ∀ (x y : RegNo) (n : BitVec 4) (s : State),
    (0xFFF < s.I.toNat + 2 → exec (.bcd x) s = .next { s with fault := .memRange }) ∧
    (0xFFF < s.I.toNat + x.toNat → exec (.storeRegs x) s = .next { s with fault := .memRange }) ∧
    (0xFFF < s.I.toNat + x.toNat → exec (.loadRegs x) s = .next { s with fault := .memRange }) ∧
    (n ≠ 0 → 0xFFF < s.I.toNat + n.toNat - 1 → exec (.drw x y n) s = .next { s with fault := .memRange })

/-- R125, R126: after `Fx55` in range, and I moved back, `Fx65` with the same x brings back the stored registers,
whatever the registers hold by then. -/
def Obligations.LoadAfterStoreBringsBackTheRegisters : Prop :=
  ∀ (x : RegNo) (s : State) (regs : Vector Byte 16), s.MemoryCanonical → s.I.toNat + x.toNat ≤ 0xFFF →
    ∃ t u, exec (.storeRegs x) s = .next t ∧ exec (.loadRegs x) { t with I := s.I, V := regs } = .next u ∧
      u = { t with V := u.V } ∧ ∀ k : RegNo, k.toNat ≤ x.toNat → u.reg k = s.reg k

/-! ### The display (43_display) -/

/-- R141: `00E0` clears all pixels and sets `dirty`, whatever they were; nothing else changes. -/
def Obligations.ClearDisplayClearsEveryPixel : Prop :=
  ∀ (s : State), ∃ t, exec .cls s = .next t ∧ t = { s with disp := t.disp, dirty := true } ∧
    ∀ px py, px < 64 → py < 32 → t.pixel px py = false

/-- R142: `Dxyn` in range XORs the sprite bits onto the display at the origin, clipped at the edges; VF tells whether a
pixel went from set to unset; `dirty` is set; nothing else changes. n = 0 reads nothing and is always in range.
(Clipping, n = 0, the bit order and the check of clipped rows are the spec's decisions D12, D13, D20, D32; log entries 8, 11.) -/
def Obligations.DrawXorsTheSprite : Prop :=
  ∀ (x y : RegNo) (n : BitVec 4) (s : State), n = 0 ∨ s.I.toNat + n.toNat - 1 ≤ 0xFFF →
    ∃ t, exec (.drw x y n) s = .next t ∧ t = { s with V := t.V, disp := t.disp, dirty := true } ∧
      (∀ r, r ≠ VF → t.reg r = s.reg r) ∧
      (∀ px py, px < 64 → py < 32 → t.pixel px py = (s.pixel px py ^^ s.spriteAt x y n px py)) ∧
      ((t.reg VF).toNat = 0 ∨ (t.reg VF).toNat = 1) ∧
      ((t.reg VF).toNat = 1 ↔ ∃ px py, px < 64 ∧ py < 32 ∧ s.pixel px py = true ∧ t.pixel px py = false)

/-- R143, 90_conflicts C6: a second draw of the same sprite at the same origin brings the display back, and reports a
collision exactly when the first draw turned a pixel on. -/
def Obligations.DrawingTwiceRestoresTheDisplay : Prop :=
  ∀ (x y : RegNo) (n : BitVec 4) (s : State), n = 0 ∨ s.I.toNat + n.toNat - 1 ≤ 0xFFF →
    ∃ t, exec (.drw x y n) s = .next t ∧
      ((t.reg x).toNat % 64 = (s.reg x).toNat % 64 → (t.reg y).toNat % 32 = (s.reg y).toNat % 32 →
        ∃ u, exec (.drw x y n) t = .next u ∧ u.disp = s.disp ∧
          ((u.reg VF).toNat = 1 ↔ ∃ px py, px < 64 ∧ py < 32 ∧ s.pixel px py = false ∧ t.pixel px py = true))

/-! ### The keypad and the timers (44_keypad_timers, 60_exceptions) -/

/-- R150, R151: with V[x] up to 15, `Ex9E` skips when key V[x] is down and `ExA1` when it is up; above 15 both raise
KEY_INDEX before any write (the spec's decision D10). -/
def Obligations.KeySkipsReadTheLatch : Prop :=
  ∀ (x : RegNo) (s : State),
    (∀ k : Fin 16, (s.reg x).toNat = k.val →
      (∃ t, exec (.skp x) s = .next t ∧ t = { s with pc := if s.key[k] then s.pc + 2 else s.pc }) ∧
      (∃ t, exec (.sknp x) s = .next t ∧ t = { s with pc := if s.key[k] then s.pc else s.pc + 2 })) ∧
    (15 < (s.reg x).toNat →
      exec (.skp x) s = .next { s with fault := .keyIndex } ∧ exec (.sknp x) s = .next { s with fault := .keyIndex })

/-- R152: `Fx0A` takes the lowest pressed key; while no key is down it rewinds pc by 2 and writes nothing, and on a
running machine that has executed it once a STEP changes nothing (but for the input port, log entry 2). The lowest of several
keys is the spec's decision D11 (log entry 9). -/
def Obligations.KeyWaitTakesTheLowestKeyOrRewinds : Prop :=
  (∀ (x : RegNo) (s : State) (k : Fin 16), s.key[k] = true → (∀ j : Fin 16, j < k → s.key[j] = false) →
    ∃ t, exec (.ldKey x) s = .next t ∧ t = { s with V := t.V } ∧ (t.reg x).toNat = k.val ∧
      ∀ r, r ≠ x → t.reg r = s.reg r) ∧
  (∀ (x : RegNo) (s : State), (∀ k : Fin 16, s.key[k] = false) →
    ∃ t, exec (.ldKey x) s = .next t ∧ t = { s with pc := s.pc - 2 }) ∧
  (∀ (x : RegNo) (s : State) (r : Byte), s.Running → (∀ k : Fin 16, s.key[k] = false) → s.pc.toNat ≤ 0xFFE →
    wordOfBytes (s.mem.read s.pc.toNat) (s.mem.read (s.pc.toNat + 1)) = encode (.ldKey x) →
    s.opcode = encode (.ldKey x) → s.diag = none → opStep r s = .next { s with rnd := r })

/-- R153, R154, R155: the three moves between a V register and a timer, and nothing else. -/
def Obligations.TimerMoves : Prop :=
  ∀ (x : RegNo) (s : State),
    (∃ t, exec (.ldDT x) s = .next t ∧ t = { s with V := t.V } ∧ ∀ r, t.reg r = if r = x then s.DT else s.reg r) ∧
    (∃ t, exec (.setDT x) s = .next t ∧ t = { s with DT := s.reg x }) ∧
    (∃ t, exec (.setST x) s = .next t ∧ t = { s with ST := s.reg x })

/-- R183: TICK lowers each timer that is above 0 by 1, independently, and changes nothing else; on a faulted machine it
does nothing. -/
def Obligations.TickCountsEachTimerDown : Prop :=
  ∀ (s : State), opTick s = { s with DT := (opTick s).DT, ST := (opTick s).ST } ∧
    (s.Running → (opTick s).DT.toNat = s.DT.toNat - 1 ∧ (opTick s).ST.toNat = s.ST.toNat - 1) ∧
    (¬ s.Running → opTick s = s)

/-- R183: on a running machine a timer that holds v is v - k after k TICKs, so it reaches 0 after exactly v of them and
stays there. -/
def Obligations.TimerReachesZeroAfterItsCount : Prop :=
  ∀ (s : State) (k : Nat), s.Running →
    ((opTick^[k]) s).DT.toNat = s.DT.toNat - k ∧ ((opTick^[k]) s).ST.toNat = s.ST.toNat - k

/-- R188, R189: SETKEYS overwrites the keypad latch and CLEARDIRTY clears `dirty`; each changes nothing else, faulted or
not; that CLEARDIRTY acts on a faulted machine is R173, the spec's decision D25 (R188 says it of SETKEYS itself). -/
def Obligations.CollaboratorWrites : Prop :=
  ∀ (s : State),
    (∀ k : Vector Bool 16, (∀ j : Fin 16, (opSetKeys k s).key[j] = k[j]) ∧
      opSetKeys k s = { s with key := (opSetKeys k s).key }) ∧
    opClearDirty s = { s with dirty := false }

/-! ### Reset and load (70_reset_and_hazards) -/

/-- R200: RESET gives every item of the machine's state its reset value, whatever the state was. (FONT is the table `font`,
log entry 1; the bytes in it are not part of the statement.) -/
def Obligations.ResetWritesEveryItem : Prop :=
  ∀ (s t : State), t = opReset s →
    (∀ r, t.reg r = 0) ∧ t.I.toNat = 0x200 ∧ t.pc.toNat = 0x200 ∧ t.sp.val = 0 ∧ t.opcode = 0 ∧
    (∀ k : Fin 16, t.stack[k] = 0) ∧ (∀ k : Fin 16, t.key[k] = false) ∧
    (∀ px py, px < 64 → py < 32 → t.pixel px py = false) ∧ t.dirty = true ∧ t.DT = 0 ∧ t.ST = 0 ∧
    t.fault.code = 0 ∧ font.length = 80 ∧
    ∀ a, t.mem.read a = if h : a < font.length then font[a] else 0

/-- R201: LOAD of at most 3584 bytes is RESET, then the bytes at 0x200 upward; pc is 0x200 and no fault stands. -/
def Obligations.LoadPlacesTheProgram : Prop :=
  ∀ (bytes : List Byte) (s : State), bytes.length ≤ 3584 →
    opLoad bytes s = { opReset s with mem := (opLoad bytes s).mem } ∧
    (∀ k (h : k < bytes.length), (opLoad bytes s).mem.read (0x200 + k) = bytes[k]) ∧
    (∀ a, a < 0x200 ∨ 0x200 + bytes.length ≤ a → (opLoad bytes s).mem.read a = (opReset s).mem.read a) ∧
    (opLoad bytes s).pc.toNat = 0x200 ∧ (opLoad bytes s).fault = .none

/-- R202: LOAD of more than 3584 bytes leaves the state of RESET, no program byte in it, with LOAD_TOO_LARGE
(the spec's decision D24, log entry 19). -/
def Obligations.LoadTooLargeIsRefused : Prop :=
  ∀ (bytes : List Byte) (s : State), 3584 < bytes.length →
    opLoad bytes s = { opReset s with fault := .loadTooLarge } ∧ (opLoad bytes s).fault.code = 1

/-! ### The whole machine -/

/-- The state of power-on is one that RESET leaves as it is (the spec's decision D28), it is running, and it meets the
invariant of every step. -/
def Obligations.ResetMeetsTheInvariant : Prop :=
  State.reset.Inv ∧ State.reset.Running ∧ opReset State.reset = State.reset

/-- R47, R49 with log entry 13: every step keeps memory in its canonical form, so that no address outside
0x000 to 0xFFF is ever listed. -/
def Obligations.StepKeepsMemoryCanonical : Prop :=
  ∀ (s t : State), s.MemoryCanonical → step s = .next t → t.MemoryCanonical

/-- R14, R80: every step keeps pc at most 0x10FE and every return address at most 0x1000 (R14 is the
spec's own inference, with its decision D9). -/
def Obligations.StepKeepsControlBounded : Prop :=
  ∀ (s t : State), s.ControlBounded → step s = .next t → t.ControlBounded

/-- R172, R173: a machine that takes a fault shows no event, and a faulted one never shows one (the spec's decisions
D7, D25; the port is log entry 4). -/
def Obligations.StepKeepsFaultQuiet : Prop :=
  ∀ (s t : State), s.FaultQuiet → step s = .next t → t.FaultQuiet

/-- R171: which instruction records which cause, and exactly when; no other instruction can fault (the spec's
decisions D3, D4, D5, D10). -/
def Obligations.InstructionFaultsExactlyWhenListed : Prop :=
  ∀ (i : Instr) (s t : State), s.Running → exec i s = .next t →
    (t.fault = .memRange ↔ (∃ x y n, i = .drw x y n ∧ 1 ≤ n.toNat ∧ 0xFFF < s.I.toNat + n.toNat - 1) ∨
      (∃ x, i = .bcd x ∧ 0xFFF < s.I.toNat + 2) ∨
      (∃ x, (i = .storeRegs x ∨ i = .loadRegs x) ∧ 0xFFF < s.I.toNat + x.toNat)) ∧
    (t.fault = .stackOverflow ↔ ∃ nnn, i = .call nnn ∧ s.sp.val = 16) ∧
    (t.fault = .stackUnderflow ↔ i = .ret ∧ s.sp.val = 0) ∧
    (t.fault = .keyIndex ↔ ∃ x, (i = .skp x ∨ i = .sknp x) ∧ 0xF < (s.reg x).toNat) ∧
    t.fault ≠ .loadTooLarge ∧ t.fault ≠ .fetchRange

/-- R172: an instruction that records a fault changes nothing but `fault` (the spec's decision D7). -/
def Obligations.FaultEntryIsPrecise : Prop :=
  ∀ (i : Instr) (s t : State), s.Running → exec i s = .next t → ¬ t.Running → t = { s with fault := t.fault }

/-- R173: the first fault is the only one, and it stays: a step out of a faulted state keeps its cause unless it is RESET
or LOAD (the spec's decisions D3, D25). -/
def Obligations.FaultIsStickyUntilResetOrLoad : Prop :=
  ∀ (s t : State), s.fault ≠ .none → step s = .next t → t.fault ≠ s.fault →
    ∃ rest, s.schedule = .reset :: rest ∨ ∃ bytes, s.schedule = .load bytes :: rest

/-- 10_state section 1, column 'written by', with R12, R14, R15, R16, R18, R19: which instructions can change which
register, and that every other one leaves it. -/
def Obligations.WhoWritesWhat : Prop :=
  ∀ (i : Instr) (s t : State), exec i s = .next t →
    (t.mem ≠ s.mem → ∃ x, i = .bcd x ∨ i = .storeRegs x) ∧
    (t.disp ≠ s.disp → i = .cls ∨ ∃ x y n, i = .drw x y n) ∧
    (t.stack ≠ s.stack → ∃ nnn, i = .call nnn) ∧
    (t.sp ≠ s.sp → i = .ret ∨ ∃ nnn, i = .call nnn) ∧
    (t.DT ≠ s.DT → ∃ x, i = .setDT x) ∧
    (t.ST ≠ s.ST → ∃ x, i = .setST x) ∧
    (t.I ≠ s.I → (∃ nnn, i = .ldI nnn) ∨ ∃ x, i = .addI x ∨ i = .ldFont x ∨ i = .storeRegs x ∨ i = .loadRegs x) ∧
    (t.pc ≠ s.pc → i = .ret ∨ (∃ nnn, i = .jp nnn ∨ i = .call nnn ∨ i = .jpV0 nnn) ∨
      (∃ x nn, i = .seImm x nn ∨ i = .sneImm x nn) ∨ (∃ x y, i = .seReg x y ∨ i = .sneReg x y) ∨
      ∃ x, i = .skp x ∨ i = .sknp x ∨ i = .ldKey x)

/-- R182: the program cannot write the key latch, clear `dirty`, or clear a fault; nor does a handler touch the `opcode`
latch, the event port, or what the environment holds (one mode of rights is the spec's decision D34; the ports and the
schedule are log entries 2, 3, 4). -/
def Obligations.ProgramCannotWriteTheHostsState : Prop :=
  ∀ (i : Instr) (s t : State), exec i s = .next t →
    t.key = s.key ∧ (s.dirty = true → t.dirty = true) ∧ (s.fault ≠ .none → t.fault ≠ .none) ∧
    t.opcode = s.opcode ∧ t.diag = s.diag ∧ t.rnd = s.rnd ∧ t.schedule = s.schedule ∧
    (t.draws ≠ s.draws → ∃ x nn, i = .rnd x nn)

/-- R18, R21, R22, R176: ST, `dirty`, the `opcode` latch and the event port cannot be observed by a program: two states
that differ in nothing else step to states that differ in nothing else. -/
def Obligations.UnreadStateStaysUnobservable : Prop :=
  ∀ (s t : State), s.SameToProgram t →
    ∃ s' t', step s = .next s' ∧ step t = .next t' ∧ s'.SameToProgram t'
end

