-- ==== Sys2Proof/Laws/Decode.lean ====
section
/-! SUPPORT. The decoder's table as arithmetic on words, and that at most one row fits a word (30_encoding R61, R64, R65). -/

namespace Sys2Proof

/-- The number of a word in format NNN. -/
theorem toNat_fmtNNN (op : BitVec 4) (nnn : Addr12) : (fmtNNN op nnn).toNat = op.toNat * 4096 + nnn.toNat := by
  have := nnn.isLt
  simp only [fmtNNN, BitVec.toNat_append]
  rw [← Nat.shiftLeft_add_eq_or_of_lt this, Nat.shiftLeft_eq]

/-- The number of a word in format XNN. -/
theorem toNat_fmtXNN (op : BitVec 4) (x : RegNo) (nn : Byte) :
    (fmtXNN op x nn).toNat = op.toNat * 4096 + x.toNat * 256 + nn.toNat := by
  have h1 := nn.isLt; have h2 := x.isLt
  simp only [fmtXNN, BitVec.toNat_append]
  rw [← Nat.shiftLeft_add_eq_or_of_lt h1, ← Nat.shiftLeft_add_eq_or_of_lt h2, Nat.shiftLeft_eq, Nat.shiftLeft_eq]
  omega

/-- The number of a word in format XY or XYN. -/
theorem toNat_fmtXYN (op : BitVec 4) (x y : RegNo) (n : BitVec 4) :
    (fmtXYN op x y n).toNat = op.toNat * 4096 + x.toNat * 256 + y.toNat * 16 + n.toNat := by
  have h1 := y.isLt; have h2 := x.isLt; have h3 := n.isLt
  simp only [fmtXYN, BitVec.toNat_append]
  rw [← Nat.shiftLeft_add_eq_or_of_lt h3, ← Nat.shiftLeft_add_eq_or_of_lt h1, ← Nat.shiftLeft_add_eq_or_of_lt h2, Nat.shiftLeft_eq, Nat.shiftLeft_eq, Nat.shiftLeft_eq]
  omega

/-- Mask FFFF keeps the word. -/
theorem and_FFFF (w : Word) : w &&& 0xFFFF#16 = w := by
  apply BitVec.eq_of_toNat_eq
  have := w.isLt
  have := Nat.and_two_pow_sub_one_eq_mod w.toNat 16
  simp only [BitVec.toNat_and, BitVec.toNat_ofNat] at *
  norm_num at *
  omega

/-- Mask F000 keeps nibble 1. -/
theorem toNat_and_F000 (w : Word) : (w &&& 0xF000#16).toNat = w.toNat / 4096 * 4096 := by
  have h : w &&& 0xF000#16 = (w >>> 12) <<< 12 := by
    apply BitVec.eq_of_getLsbD_eq
    intro i hi
    interval_cases i <;> simp
  have := w.isLt
  rw [h]
  simp [BitVec.toNat_shiftLeft, BitVec.toNat_ushiftRight, Nat.shiftRight_eq_div_pow, Nat.shiftLeft_eq]
  omega

/-- Mask F00F keeps nibbles 1 and 4. -/
theorem toNat_and_F00F (w : Word) : (w &&& 0xF00F#16).toNat = w.toNat / 4096 * 4096 + w.toNat % 16 := by
  have h : w &&& 0xF00F#16 = ((w >>> 12) <<< 12) ||| (w &&& 0xF#16) := by
    apply BitVec.eq_of_getLsbD_eq
    intro i hi
    interval_cases i <;> simp
  have hw := w.isLt
  have e : (w &&& 0xF#16).toNat = w.toNat % 16 := by
    have := Nat.and_two_pow_sub_one_eq_mod w.toNat 4
    simpa using this
  rw [h, BitVec.toNat_or, e]
  have e2 : ((w >>> 12) <<< 12).toNat = (w.toNat / 4096) <<< 12 := by
    simp [BitVec.toNat_shiftLeft, BitVec.toNat_ushiftRight, Nat.shiftRight_eq_div_pow, Nat.shiftLeft_eq]
    omega
  rw [e2, ← Nat.shiftLeft_add_eq_or_of_lt (by omega), Nat.shiftLeft_eq]

/-- Mask F0FF keeps nibble 1 and the low byte. -/
theorem toNat_and_F0FF (w : Word) : (w &&& 0xF0FF#16).toNat = w.toNat / 4096 * 4096 + w.toNat % 256 := by
  have h : w &&& 0xF0FF#16 = ((w >>> 12) <<< 12) ||| (w &&& 0xFF#16) := by
    apply BitVec.eq_of_getLsbD_eq
    intro i hi
    interval_cases i <;> simp
  have hw := w.isLt
  have e : (w &&& 0xFF#16).toNat = w.toNat % 256 := by
    have := Nat.and_two_pow_sub_one_eq_mod w.toNat 8
    simpa using this
  rw [h, BitVec.toNat_or, e]
  have e2 : ((w >>> 12) <<< 12).toNat = (w.toNat / 4096) <<< 12 := by
    simp [BitVec.toNat_shiftLeft, BitVec.toNat_ushiftRight, Nat.shiftRight_eq_div_pow, Nat.shiftLeft_eq]
    omega
  rw [e2, ← Nat.shiftLeft_add_eq_or_of_lt (by omega), Nat.shiftLeft_eq]

/-- A row fits a word when the masked number is the pattern's (R65). -/
theorem fits_iff (p m w : Word) (b : Word → Instr) : (Row.mk p m b).fits w = true ↔ (w &&& m).toNat = p.toNat := by
  simp [Row.fits, BitVec.toNat_eq]

/-- A row of mask FFFF fits one word. -/
theorem fits_FFFF (p w : Word) (b : Word → Instr) : (Row.mk p 0xFFFF#16 b).fits w = decide (w.toNat = p.toNat) := by
  rw [Bool.eq_iff_iff, decide_eq_true_eq, fits_iff, and_FFFF]

/-- A row of mask F000 looks at nibble 1. -/
theorem fits_F000 (p w : Word) (b : Word → Instr) : (Row.mk p 0xF000#16 b).fits w = decide (w.toNat / 4096 * 4096 = p.toNat) := by
  rw [Bool.eq_iff_iff, decide_eq_true_eq, fits_iff, toNat_and_F000]

/-- A row of mask F00F looks at nibbles 1 and 4. -/
theorem fits_F00F (p w : Word) (b : Word → Instr) :
    (Row.mk p 0xF00F#16 b).fits w = decide (w.toNat / 4096 * 4096 + w.toNat % 16 = p.toNat) := by
  rw [Bool.eq_iff_iff, decide_eq_true_eq, fits_iff, toNat_and_F00F]

/-- A row of mask F0FF looks at nibble 1 and the low byte. -/
theorem fits_F0FF (p w : Word) (b : Word → Instr) :
    (Row.mk p 0xF0FF#16 b).fits w = decide (w.toNat / 4096 * 4096 + w.toNat % 256 = p.toNat) := by
  rw [Bool.eq_iff_iff, decide_eq_true_eq, fits_iff, toNat_and_F0FF]

/-- x is nibble 2 (R64). -/
theorem toNat_fieldX (w : Word) : (fieldX w).toNat = w.toNat / 256 % 16 := by
  simp [fieldX, BitVec.extractLsb'_toNat, Nat.shiftRight_eq_div_pow]
/-- y is nibble 3 (R64). -/
theorem toNat_fieldY (w : Word) : (fieldY w).toNat = w.toNat / 16 % 16 := by
  simp [fieldY, BitVec.extractLsb'_toNat, Nat.shiftRight_eq_div_pow]
/-- n is nibble 4 (R64). -/
theorem toNat_fieldN (w : Word) : (fieldN w).toNat = w.toNat % 16 := by
  simp [fieldN, BitVec.extractLsb'_toNat]
/-- nn is the low byte (R64). -/
theorem toNat_fieldNN (w : Word) : (fieldNN w).toNat = w.toNat % 256 := by
  simp [fieldNN, BitVec.extractLsb'_toNat]
/-- nnn is the low twelve bits (R64). -/
theorem toNat_fieldNNN (w : Word) : (fieldNNN w).toNat = w.toNat % 4096 := by
  simp [fieldNNN, BitVec.extractLsb'_toNat]

/-- The two bytes of a word make it again (R44). -/
theorem wordOfBytes_bytesOfWord (w : Word) : wordOfBytes (highByte w) (lowByte w) = w := by
  apply BitVec.eq_of_toNat_eq
  have hw := w.isLt
  simp only [wordOfBytes, highByte, lowByte, BitVec.toNat_append, BitVec.extractLsb'_toNat]
  rw [← Nat.shiftLeft_add_eq_or_of_lt (by omega)]
  simp [Nat.shiftRight_eq_div_pow, Nat.shiftLeft_eq]
  omega


/-- The class of a word in format NNN. -/
theorem wordClass_fmtNNN (op : BitVec 4) (nnn : Addr12) : wordClass (fmtNNN op nnn) = op.toNat := by
  have := nnn.isLt
  rw [wordClass, toNat_fmtNNN]; omega
/-- The class of a word in format XNN. -/
theorem wordClass_fmtXNN (op : BitVec 4) (x : RegNo) (nn : Byte) : wordClass (fmtXNN op x nn) = op.toNat := by
  have := nn.isLt; have := x.isLt
  rw [wordClass, toNat_fmtXNN]; omega
/-- The class of a word in format XY or XYN. -/
theorem wordClass_fmtXYN (op : BitVec 4) (x y n : BitVec 4) : wordClass (fmtXYN op x y n) = op.toNat := by
  have := n.isLt; have := x.isLt; have := y.isLt
  rw [wordClass, toNat_fmtXYN]; omega
/-- The low byte of a word in format XNN. -/
theorem mod256_fmtXNN (op : BitVec 4) (x : RegNo) (nn : Byte) : (fmtXNN op x nn).toNat % 256 = nn.toNat := by
  have := nn.isLt; have := x.isLt
  rw [toNat_fmtXNN]; omega
/-- The low nibble of a word in format XY or XYN. -/
theorem mod16_fmtXYN (op x y n : BitVec 4) : (fmtXYN op x y n).toNat % 16 = n.toNat := by
  have := n.isLt
  rw [toNat_fmtXYN]; omega

/-- No word fits two rows of the table: somewhere both masks look, the patterns differ (R61). -/
theorem opcodeMap_conflicts :
    opcodeMap.Pairwise (fun r q => r.mask &&& q.mask &&& (r.pattern ^^^ q.pattern) ≠ 0) := by
  decide +kernel

/-- Two rows whose patterns differ where both masks look fit no common word. -/
theorem not_fits_of_conflict {r q : Row} (h : r.mask &&& q.mask &&& (r.pattern ^^^ q.pattern) ≠ 0) {w : Word}
    (hr : r.fits w = true) : q.fits w = false := by
  by_contra hq
  simp only [Bool.not_eq_false] at hq
  simp only [Row.fits, beq_iff_eq] at hr hq
  apply h
  rw [← hr, ← hq]
  apply BitVec.eq_of_getLsbD_eq
  intro k hk
  simp only [BitVec.getLsbD_and, BitVec.getLsbD_xor]
  cases w.getLsbD k <;> cases r.mask.getLsbD k <;> cases q.mask.getLsbD k <;> simp

/-- In a list of rows no two of which fit a common word, a row that fits is the row that is found. -/
theorem find_of_conflicts {rows : List Row}
    (h : rows.Pairwise (fun r q => r.mask &&& q.mask &&& (r.pattern ^^^ q.pattern) ≠ 0))
    {r : Row} (hm : r ∈ rows) {w : Word} (hf : r.fits w = true) :
    rows.find? (fun r => r.fits w) = some r := by
  induction rows with
  | nil => simp at hm
  | cons q rows ih =>
    obtain ⟨hq, hrows⟩ := List.pairwise_cons.1 h
    rcases List.mem_cons.1 hm with rfl | hm
    · simp [List.find?, hf]
    · have hn : q.fits w = false := by
        by_contra hc
        simp only [Bool.not_eq_false] at hc
        have := not_fits_of_conflict (hq r hm) hc
        simp [hf] at this
      simp [List.find?, hn, ih hrows hm]

/-- A word that fits a row decodes to that row's instruction (R65). -/
theorem decodeWord_of_fits {r : Row} (hm : r ∈ opcodeMap) {w : Word} (hf : r.fits w = true) :
    decodeWord w = some (r.build w) := by
  rw [decodeWord, find_of_conflicts opcodeMap_conflicts hm hf]
  rfl

/-- A word that decodes fits the row of its instruction. -/
theorem fits_of_decodeWord {w : Word} {i : Instr} (h : decodeWord w = some i) :
    ∃ r ∈ opcodeMap, r.fits w = true ∧ r.build w = i := by
  simp only [decodeWord, Option.map_eq_some_iff] at h
  obtain ⟨r, hr, rfl⟩ := h
  exact ⟨r, List.mem_of_find?_eq_some hr, by simpa using List.find?_some hr, rfl⟩

end Sys2Proof
end

