-- ==== Sys2Proof/Laws/Display.lean ====
section
/-! SUPPORT. What the sprite loops of `Dxyn` do to every pixel, and when they report a collision (43_display R142). -/

namespace Sys2Proof.Machine

/-- What one plotted pixel does to every pixel (R142). -/
theorem pixel_plot (px py : Nat) (a : Display × Bool) (qx qy : Nat) (hx : qx < 64) (hy : qy < 32) :
    (plot px py a).1.pixel qx qy = (a.1.pixel qx qy ^^ decide (qx = px ∧ qy = py)) := by
  unfold plot
  split
  · next h =>
    by_cases hq : qy = py
    · subst hq
      simp only [Display.pixel, hy, dif_pos, Vector.getElem_set_self, BitVec.getLsbD_xor, BitVec.getLsbD_shiftLeft]
      have : (qx < px ∨ px ≤ qx) := by omega
      by_cases hxx : qx = px
      · subst hxx; simp [hx]
      · rcases this with h1 | h1
        · simp [hx, h1, hxx]
        · have : qx - px ≠ 0 := by omega
          simp [hx, hxx, this]
    · simp [Display.pixel, hy, hq, Vector.getElem_set_ne, Ne.symm hq]
  · next h =>
    have : ¬ (qx = px ∧ qy = py) := by rintro ⟨rfl, rfl⟩; exact h ⟨hx, hy⟩
    simp [this]

/-- When one plotted pixel reports a collision (R142). -/
theorem flag_plot (px py : Nat) (a : Display × Bool) :
    (plot px py a).2 = (a.2 || (decide (px < 64 ∧ py < 32) && a.1.pixel px py)) := by
  unfold plot
  split <;> simp_all

/-- The pixels plotted so far while row byte `row` is drawn, columns 0 to n - 1. -/
def rowSoFar (row : Byte) (x0 py : Nat) (a : Display × Bool) (n : Nat) : Display × Bool :=
  (List.range n).foldl (fun a k => if row.getLsbD (7 - k) then plot (x0 + k) py a else a) a

/-- One more column. -/
theorem rowSoFar_succ (row : Byte) (x0 py : Nat) (a : Display × Bool) (n : Nat) :
    rowSoFar row x0 py a (n + 1) =
      if row.getLsbD (7 - n) then plot (x0 + n) py (rowSoFar row x0 py a n) else rowSoFar row x0 py a n := by
  simp [rowSoFar, List.range_succ]

/-- What the first n columns of a row do to every pixel. -/
theorem pixel_rowSoFar (row : Byte) (x0 py : Nat) (a : Display × Bool) (n qx qy : Nat) (hx : qx < 64) (hy : qy < 32) :
    (rowSoFar row x0 py a n).1.pixel qx qy =
      (a.1.pixel qx qy ^^ (decide (qy = py ∧ x0 ≤ qx ∧ qx < x0 + n) && row.getLsbD (7 - (qx - x0)))) := by
  induction n with
  | zero =>
    have : ¬ (qy = py ∧ x0 ≤ qx ∧ qx < x0 + 0) := by omega
    simp only [this, decide_false, Bool.false_and, Bool.xor_false]
    rfl
  | succ n ih =>
    rw [rowSoFar_succ]
    by_cases hq : qx = x0 + n ∧ qy = py
    · obtain ⟨rfl, rfl⟩ := hq
      split
      · next h => rw [pixel_plot _ _ _ _ _ hx hy, ih]; simp [h]
      · next h => rw [ih]; simp [h]
    · have e : (qy = py ∧ x0 ≤ qx ∧ qx < x0 + (n + 1)) ↔ (qy = py ∧ x0 ≤ qx ∧ qx < x0 + n) := by omega
      simp only [e]
      split
      · rw [pixel_plot _ _ _ _ _ hx hy, ih]; simp [hq]
      · exact ih

/-- When the first n columns of a row report a collision. -/
theorem flag_rowSoFar (row : Byte) (x0 py : Nat) (a : Display × Bool) (n : Nat) :
    (rowSoFar row x0 py a n).2 = true ↔ a.2 = true ∨ ∃ qx, qx < 64 ∧ py < 32 ∧ x0 ≤ qx ∧ qx < x0 + n ∧
      row.getLsbD (7 - (qx - x0)) = true ∧ a.1.pixel qx py = true := by
  induction n with
  | zero =>
    constructor
    · exact Or.inl
    · rintro (h | ⟨qx, -, -, h1, h2, -⟩)
      · exact h
      · omega
  | succ n ih =>
    rw [rowSoFar_succ]
    split
    · next hb =>
      rw [flag_plot, Bool.or_eq_true, ih, Bool.and_eq_true, decide_eq_true_eq]
      constructor
      · rintro ((h | ⟨qx, h1, h2, h3, h4, h5⟩) | ⟨⟨h1, h2⟩, h3⟩)
        · exact Or.inl h
        · exact Or.inr ⟨qx, h1, h2, h3, by omega, h5⟩
        · rw [pixel_rowSoFar _ _ _ _ _ _ _ h1 h2] at h3
          exact Or.inr ⟨x0 + n, h1, h2, by omega, by omega, by simpa using hb, by simpa using h3⟩
      · rintro (h | ⟨qx, h1, h2, h3, h4, h5, h6⟩)
        · exact Or.inl (Or.inl h)
        · by_cases e : qx = x0 + n
          · subst e
            refine Or.inr ⟨⟨h1, h2⟩, ?_⟩
            rw [pixel_rowSoFar _ _ _ _ _ _ _ h1 h2]
            simpa using h6
          · exact Or.inl (Or.inr ⟨qx, h1, h2, h3, by omega, h5, h6⟩)
    · next hb =>
      rw [ih]
      constructor
      · rintro (h | ⟨qx, h1, h2, h3, h4, h5⟩)
        · exact Or.inl h
        · exact Or.inr ⟨qx, h1, h2, h3, by omega, h5⟩
      · rintro (h | ⟨qx, h1, h2, h3, h4, h5, h6⟩)
        · exact Or.inl h
        · refine Or.inr ⟨qx, h1, h2, h3, ?_, h5, h6⟩
          by_contra hc
          have : qx = x0 + n := by omega
          subst this
          exact hb (by simpa using h5)

/-- The bit of the row bytes `bs`, drawn at (x0, y0), that lies over pixel (px, py). -/
def rowsBit (bs : List Byte) (x0 y0 px py : Nat) : Bool :=
  decide (x0 ≤ px ∧ px < x0 + 8 ∧ y0 ≤ py ∧ py < y0 + bs.length) && (bs.getD (py - y0) 0).getLsbD (7 - (px - x0))

/-- The first row and the rest. -/
theorem rowsBit_cons (b : Byte) (bs : List Byte) (x0 y0 px py : Nat) :
    rowsBit (b :: bs) x0 y0 px py =
      ((decide (py = y0 ∧ x0 ≤ px ∧ px < x0 + 8) && b.getLsbD (7 - (px - x0))) ^^ rowsBit bs x0 (y0 + 1) px py) := by
  unfold rowsBit
  by_cases h : py = y0
  · subst h
    simp
  · by_cases h2 : y0 ≤ py
    · obtain ⟨k, rfl⟩ : ∃ k, py = y0 + 1 + k := ⟨py - (y0 + 1), by omega⟩
      have e1 : y0 + 1 + k - y0 = k + 1 := by omega
      have e2 : y0 + 1 + k - (y0 + 1) = k := by omega
      simp only [e1, e2, List.getD_cons_succ, List.length_cons, h, false_and, decide_false, Bool.false_and, Bool.false_xor]
      congr 1
      simp only [decide_eq_decide]
      omega
    · have h3 : ¬ (y0 + 1 ≤ py) := by omega
      simp [h, h2, h3]

/-- What drawing a sprite does to every pixel (R142). -/
theorem pixel_drawRows (bs : List Byte) (x0 y0 : Nat) (a : Display × Bool) (qx qy : Nat) (hx : qx < 64) (hy : qy < 32) :
    (drawRows bs x0 y0 a).1.pixel qx qy = (a.1.pixel qx qy ^^ rowsBit bs x0 y0 qx qy) := by
  induction bs generalizing y0 a with
  | nil =>
    simp [drawRows, rowsBit]
  | cons b bs ih =>
    have hr : drawRow b x0 y0 a = rowSoFar b x0 y0 a 8 := rfl
    rw [drawRows, ih, hr, pixel_rowSoFar _ _ _ _ _ _ _ hx hy, rowsBit_cons, Bool.xor_assoc]

/-- When drawing a sprite reports a collision: some visible set bit lies on a set pixel (R142, R143). -/
theorem flag_drawRows (bs : List Byte) (x0 y0 : Nat) (a : Display × Bool) :
    (drawRows bs x0 y0 a).2 = true ↔ a.2 = true ∨ ∃ qx qy, qx < 64 ∧ qy < 32 ∧
      rowsBit bs x0 y0 qx qy = true ∧ a.1.pixel qx qy = true := by
  induction bs generalizing y0 a with
  | nil => 
    constructor
    · exact Or.inl
    · rintro (h | ⟨qx, qy, -, -, h, -⟩)
      · exact h
      · simp [rowsBit] at h
  | cons b bs ih =>
    have hr : drawRow b x0 y0 a = rowSoFar b x0 y0 a 8 := rfl
    rw [drawRows, ih, hr, flag_rowSoFar]
    constructor
    · rintro ((h | ⟨qx, h1, h2, h3, h4, h5, h6⟩) | ⟨qx, qy, h1, h2, h3, h4⟩)
      · exact Or.inl h
      · refine Or.inr ⟨qx, y0, h1, h2, ?_, h6⟩
        simp [rowsBit, h3, h4]; simpa using h5
      · have hy : y0 + 1 ≤ qy := by
          simp [rowsBit] at h3; omega
        rw [pixel_rowSoFar _ _ _ _ _ _ _ h1 h2] at h4
        have : ¬ (qy = y0 ∧ x0 ≤ qx ∧ qx < x0 + 8) := by omega
        refine Or.inr ⟨qx, qy, h1, h2, ?_, by simpa [this] using h4⟩
        rw [rowsBit_cons]
        simp only [this, decide_false, Bool.false_and, Bool.false_xor, h3]
    · rintro (h | ⟨qx, qy, h1, h2, h3, h4⟩)
      · exact Or.inl (Or.inl h)
      · by_cases e : qy = y0
        · subst e
          refine Or.inl (Or.inr ⟨qx, h1, h2, ?_, ?_, ?_, h4⟩)
          · simp [rowsBit] at h3; omega
          · simp [rowsBit] at h3; omega
          · simp [rowsBit] at h3; simpa using h3.2
        · have : ¬ (qy = y0 ∧ x0 ≤ qx ∧ qx < x0 + 8) := by omega
          refine Or.inr ⟨qx, qy, h1, h2, ?_, ?_⟩
          · rw [rowsBit_cons] at h3
            simpa [this] using h3
          · rw [pixel_rowSoFar _ _ _ _ _ _ _ h1 h2]
            simpa [this] using h4

/-- Two displays with the same pixels are the same. -/
theorem display_ext {d e : Display} (h : ∀ x y, x < 64 → y < 32 → d.pixel x y = e.pixel x y) : d = e := by
  apply Vector.ext
  intro y hy
  apply BitVec.eq_of_getLsbD_eq
  intro x hx
  have := h x y hx hy
  simpa [Display.pixel, hy] using this

end Sys2Proof.Machine
end

