-- ==== Sys2Proof/Laws/Memory.lean ====
section
/-! SUPPORT. What reading and writing memory does (20_memory R46, R49), and that every write keeps the canonical form. -/

namespace Sys2Proof.Machine

/-- Memory that lists nothing is canonical. -/
theorem Memory.wf_nil : Memory.wf [] := ⟨List.Pairwise.nil, by simp⟩

/-- An entry above everything before it. -/
theorem Memory.wf_cons {c : Host.Cell} {m : Memory} :
    Memory.wf (c :: m) ↔ (∀ d ∈ m, c.1 < d.1) ∧ c.1 < Config.memSize ∧ c.2 ≠ resetByte c.1 ∧ Memory.wf m := by
  simp only [Memory.wf, List.pairwise_cons, List.mem_cons, forall_eq_or_imp]
  tauto

/-- An address below every listed one reads as its reset contents. -/
theorem Memory.read_of_below {m : Memory} {a : Nat} (h : ∀ d ∈ m, a < d.1) : m.read a = resetByte a := by
  induction m with
  | nil => rfl
  | cons c m ih =>
    have hc := h c (by simp)
    simp only [Memory.read]
    rw [if_neg (by omega)]
    exact ih fun d hd => h d (by simp [hd])

/-- The addresses a write lists are the written one and the old ones. -/
theorem Memory.mem_write {m : Memory} {a : Nat} {v : Byte} {d : Host.Cell} (h : d ∈ m.write a v) :
    d = (a, v) ∨ d ∈ m := by
  induction m with
  | nil =>
    simp only [Memory.write, Memory.put] at h
    split at h <;> simp_all
  | cons c m ih =>
    obtain ⟨b, w⟩ := c
    simp only [Memory.write, Memory.put] at h
    split_ifs at h <;> simp only [List.mem_cons] at h ⊢ <;> tauto

/-- A write to an address keeps the canonical form. -/
theorem Memory.wf_write {m : Memory} (h : m.wf) {a : Nat} (ha : a < Config.memSize) (v : Byte) :
    (m.write a v).wf := by
  induction m with
  | nil => 
    simp only [Memory.write, Memory.put]
    split
    · exact Memory.wf_nil
    · exact Memory.wf_cons.2 ⟨by simp, ha, by assumption, Memory.wf_nil⟩
  | cons c m ih =>
    obtain ⟨b, w⟩ := c
    obtain ⟨hb, hlt, hne, hm⟩ := Memory.wf_cons.1 h
    simp only [Memory.write, Memory.put]
    split_ifs with h1 h2 h3 h4
    · exact h
    · refine Memory.wf_cons.2 ⟨?_, ha, h2, h⟩
      intro d hd
      rcases List.mem_cons.1 hd with rfl | hd
      · exact h1
      · exact lt_trans h1 (hb d hd)
    · exact hm
    · exact Memory.wf_cons.2 ⟨fun d hd => h3 ▸ hb d hd, ha, h4, hm⟩
    · refine Memory.wf_cons.2 ⟨?_, hlt, hne, ih hm⟩
      intro d hd
      rcases Memory.mem_write hd with rfl | hd
      · simp only; omega
      · exact hb d hd

/-- Reading after a write, in canonical memory (R49). -/
theorem Memory.read_write {m : Memory} (h : m.wf) (a : Nat) (v : Byte) (q : Nat) :
    (m.write a v).read q = if q = a then v else m.read q := by
  induction m with
  | nil =>
    simp only [Memory.write, Memory.put]
    split_ifs <;> simp_all [Memory.read]
  | cons c m ih =>
    obtain ⟨b, w⟩ := c
    obtain ⟨hb, -, -, hm⟩ := Memory.wf_cons.1 h
    have hmb : Memory.read m b = resetByte b := Memory.read_of_below hb
    simp only [Memory.write, Memory.put]
    split_ifs with h1 h2 h3 h4 h5 h6 h7 h8
    · subst h3 h2
      exact Memory.read_of_below fun d hd => by
        rcases List.mem_cons.1 hd with rfl | hd
        · exact h1
        · exact lt_trans h1 (hb d hd)
    all_goals simp_all [Memory.read]

/-- A write leaves every other address alone, in any memory. -/
theorem Memory.read_write_ne (m : Memory) {a q : Nat} (h : q ≠ a) (v : Byte) :
    (m.write a v).read q = m.read q := by
  induction m with
  | nil => simp only [Memory.write, Memory.put]; split_ifs <;> simp_all [Memory.read]
  | cons c m ih =>
    obtain ⟨b, w⟩ := c
    simp only [Memory.write, Memory.put]
    split_ifs <;> simp_all [Memory.read]

/-- A written run that stays inside memory keeps the canonical form. -/
theorem Memory.wf_writeList {m : Memory} (h : m.wf) (vs : List Byte) {a : Nat} (ha : a + vs.length ≤ Config.memSize) :
    (m.writeList a vs).wf := by
  induction vs generalizing m a with
  | nil => exact h
  | cons v vs ih =>
    simp only [List.length_cons] at ha
    exact ih (Memory.wf_write h (by omega) v) (by omega)

/-- Outside the written run every address reads as before, in any memory. -/
theorem Memory.read_writeList_outside (m : Memory) (vs : List Byte) {a q : Nat}
    (h : q < a ∨ a + vs.length ≤ q) : (m.writeList a vs).read q = m.read q := by
  induction vs generalizing m a with
  | nil => rfl
  | cons v vs ih =>
    simp only [List.length_cons] at h
    simp only [Memory.writeList]
    rw [ih _ (by omega), Memory.read_write_ne _ (by omega)]

/-- Byte k of the written run. -/
theorem Memory.read_writeList_inside {m : Memory} (h : m.wf) (vs : List Byte) {a k : Nat}
    (ha : a + vs.length ≤ Config.memSize) (hk : k < vs.length) :
    (m.writeList a vs).read (a + k) = vs[k] := by
  induction vs generalizing m a k with
  | nil => simp at hk
  | cons v vs ih =>
    simp only [List.length_cons] at ha hk
    have hw := Memory.wf_write h (a := a) (by omega) v
    simp only [Memory.writeList]
    cases k with
    | zero =>
      rw [Memory.read_writeList_outside _ _ (by omega), Memory.read_write h]
      simp
    | succ k =>
      have := ih hw (a := a + 1) (k := k) (by omega) (by omega)
      simpa [Nat.add_assoc, Nat.add_comm 1 k] using this

@[simp] theorem Memory.length_readList (m : Memory) (a n : Nat) : (m.readList a n).length = n := by
  simp [Memory.readList]

@[simp] theorem Memory.getElem_readList (m : Memory) (a n k : Nat) (h : k < (m.readList a n).length) :
    (m.readList a n)[k] = m.read (a + k) := by
  simp [Memory.readList]

/-- Reset memory, and only it, lists nothing, so it reads as the reset contents (R200). -/
@[simp] theorem Memory.read_nil (a : Nat) : Memory.read [] a = resetByte a := rfl

/-- The font has its 80 bytes (R4). -/
theorem font_length : font.length = Config.fontLen := by decide
end Sys2Proof.Machine
end

