-- ==== Sys2Proof/Laws/State.lean ====
section
/-! SUPPORT. One lemma per field per named update: what the update leaves and what it writes. -/

namespace Sys2Proof.Machine

variable (s : State)

@[simp] theorem State.setReg_I (r : RegNo) (b : Byte) : (s.setReg r b).I = s.I := rfl
@[simp] theorem State.setReg_pc (r : RegNo) (b : Byte) : (s.setReg r b).pc = s.pc := rfl
@[simp] theorem State.setReg_stack (r : RegNo) (b : Byte) : (s.setReg r b).stack = s.stack := rfl
@[simp] theorem State.setReg_sp (r : RegNo) (b : Byte) : (s.setReg r b).sp = s.sp := rfl
@[simp] theorem State.setReg_DT (r : RegNo) (b : Byte) : (s.setReg r b).DT = s.DT := rfl
@[simp] theorem State.setReg_ST (r : RegNo) (b : Byte) : (s.setReg r b).ST = s.ST := rfl
@[simp] theorem State.setReg_mem (r : RegNo) (b : Byte) : (s.setReg r b).mem = s.mem := rfl
@[simp] theorem State.setReg_disp (r : RegNo) (b : Byte) : (s.setReg r b).disp = s.disp := rfl
@[simp] theorem State.setReg_key (r : RegNo) (b : Byte) : (s.setReg r b).key = s.key := rfl
@[simp] theorem State.setReg_dirty (r : RegNo) (b : Byte) : (s.setReg r b).dirty = s.dirty := rfl
@[simp] theorem State.setReg_opcode (r : RegNo) (b : Byte) : (s.setReg r b).opcode = s.opcode := rfl
@[simp] theorem State.setReg_fault (r : RegNo) (b : Byte) : (s.setReg r b).fault = s.fault := rfl
@[simp] theorem State.setReg_diag (r : RegNo) (b : Byte) : (s.setReg r b).diag = s.diag := rfl
@[simp] theorem State.setReg_rnd (r : RegNo) (b : Byte) : (s.setReg r b).rnd = s.rnd := rfl
@[simp] theorem State.setReg_draws (r : RegNo) (b : Byte) : (s.setReg r b).draws = s.draws := rfl
@[simp] theorem State.setReg_schedule (r : RegNo) (b : Byte) : (s.setReg r b).schedule = s.schedule := rfl

@[simp] theorem State.setI_V (w : Word) : (s.setI w).V = s.V := rfl
@[simp] theorem State.setI_I (w : Word) : (s.setI w).I = w := rfl
@[simp] theorem State.setI_pc (w : Word) : (s.setI w).pc = s.pc := rfl
@[simp] theorem State.setI_stack (w : Word) : (s.setI w).stack = s.stack := rfl
@[simp] theorem State.setI_sp (w : Word) : (s.setI w).sp = s.sp := rfl
@[simp] theorem State.setI_DT (w : Word) : (s.setI w).DT = s.DT := rfl
@[simp] theorem State.setI_ST (w : Word) : (s.setI w).ST = s.ST := rfl
@[simp] theorem State.setI_mem (w : Word) : (s.setI w).mem = s.mem := rfl
@[simp] theorem State.setI_disp (w : Word) : (s.setI w).disp = s.disp := rfl
@[simp] theorem State.setI_key (w : Word) : (s.setI w).key = s.key := rfl
@[simp] theorem State.setI_dirty (w : Word) : (s.setI w).dirty = s.dirty := rfl
@[simp] theorem State.setI_opcode (w : Word) : (s.setI w).opcode = s.opcode := rfl
@[simp] theorem State.setI_fault (w : Word) : (s.setI w).fault = s.fault := rfl
@[simp] theorem State.setI_diag (w : Word) : (s.setI w).diag = s.diag := rfl
@[simp] theorem State.setI_rnd (w : Word) : (s.setI w).rnd = s.rnd := rfl
@[simp] theorem State.setI_draws (w : Word) : (s.setI w).draws = s.draws := rfl
@[simp] theorem State.setI_schedule (w : Word) : (s.setI w).schedule = s.schedule := rfl

@[simp] theorem State.setPc_V (w : Word) : (s.setPc w).V = s.V := rfl
@[simp] theorem State.setPc_I (w : Word) : (s.setPc w).I = s.I := rfl
@[simp] theorem State.setPc_pc (w : Word) : (s.setPc w).pc = w := rfl
@[simp] theorem State.setPc_stack (w : Word) : (s.setPc w).stack = s.stack := rfl
@[simp] theorem State.setPc_sp (w : Word) : (s.setPc w).sp = s.sp := rfl
@[simp] theorem State.setPc_DT (w : Word) : (s.setPc w).DT = s.DT := rfl
@[simp] theorem State.setPc_ST (w : Word) : (s.setPc w).ST = s.ST := rfl
@[simp] theorem State.setPc_mem (w : Word) : (s.setPc w).mem = s.mem := rfl
@[simp] theorem State.setPc_disp (w : Word) : (s.setPc w).disp = s.disp := rfl
@[simp] theorem State.setPc_key (w : Word) : (s.setPc w).key = s.key := rfl
@[simp] theorem State.setPc_dirty (w : Word) : (s.setPc w).dirty = s.dirty := rfl
@[simp] theorem State.setPc_opcode (w : Word) : (s.setPc w).opcode = s.opcode := rfl
@[simp] theorem State.setPc_fault (w : Word) : (s.setPc w).fault = s.fault := rfl
@[simp] theorem State.setPc_diag (w : Word) : (s.setPc w).diag = s.diag := rfl
@[simp] theorem State.setPc_rnd (w : Word) : (s.setPc w).rnd = s.rnd := rfl
@[simp] theorem State.setPc_draws (w : Word) : (s.setPc w).draws = s.draws := rfl
@[simp] theorem State.setPc_schedule (w : Word) : (s.setPc w).schedule = s.schedule := rfl

@[simp] theorem State.setDT_V (b : Byte) : (s.setDT b).V = s.V := rfl
@[simp] theorem State.setDT_I (b : Byte) : (s.setDT b).I = s.I := rfl
@[simp] theorem State.setDT_pc (b : Byte) : (s.setDT b).pc = s.pc := rfl
@[simp] theorem State.setDT_stack (b : Byte) : (s.setDT b).stack = s.stack := rfl
@[simp] theorem State.setDT_sp (b : Byte) : (s.setDT b).sp = s.sp := rfl
@[simp] theorem State.setDT_DT (b : Byte) : (s.setDT b).DT = b := rfl
@[simp] theorem State.setDT_ST (b : Byte) : (s.setDT b).ST = s.ST := rfl
@[simp] theorem State.setDT_mem (b : Byte) : (s.setDT b).mem = s.mem := rfl
@[simp] theorem State.setDT_disp (b : Byte) : (s.setDT b).disp = s.disp := rfl
@[simp] theorem State.setDT_key (b : Byte) : (s.setDT b).key = s.key := rfl
@[simp] theorem State.setDT_dirty (b : Byte) : (s.setDT b).dirty = s.dirty := rfl
@[simp] theorem State.setDT_opcode (b : Byte) : (s.setDT b).opcode = s.opcode := rfl
@[simp] theorem State.setDT_fault (b : Byte) : (s.setDT b).fault = s.fault := rfl
@[simp] theorem State.setDT_diag (b : Byte) : (s.setDT b).diag = s.diag := rfl
@[simp] theorem State.setDT_rnd (b : Byte) : (s.setDT b).rnd = s.rnd := rfl
@[simp] theorem State.setDT_draws (b : Byte) : (s.setDT b).draws = s.draws := rfl
@[simp] theorem State.setDT_schedule (b : Byte) : (s.setDT b).schedule = s.schedule := rfl

@[simp] theorem State.setST_V (b : Byte) : (s.setST b).V = s.V := rfl
@[simp] theorem State.setST_I (b : Byte) : (s.setST b).I = s.I := rfl
@[simp] theorem State.setST_pc (b : Byte) : (s.setST b).pc = s.pc := rfl
@[simp] theorem State.setST_stack (b : Byte) : (s.setST b).stack = s.stack := rfl
@[simp] theorem State.setST_sp (b : Byte) : (s.setST b).sp = s.sp := rfl
@[simp] theorem State.setST_DT (b : Byte) : (s.setST b).DT = s.DT := rfl
@[simp] theorem State.setST_ST (b : Byte) : (s.setST b).ST = b := rfl
@[simp] theorem State.setST_mem (b : Byte) : (s.setST b).mem = s.mem := rfl
@[simp] theorem State.setST_disp (b : Byte) : (s.setST b).disp = s.disp := rfl
@[simp] theorem State.setST_key (b : Byte) : (s.setST b).key = s.key := rfl
@[simp] theorem State.setST_dirty (b : Byte) : (s.setST b).dirty = s.dirty := rfl
@[simp] theorem State.setST_opcode (b : Byte) : (s.setST b).opcode = s.opcode := rfl
@[simp] theorem State.setST_fault (b : Byte) : (s.setST b).fault = s.fault := rfl
@[simp] theorem State.setST_diag (b : Byte) : (s.setST b).diag = s.diag := rfl
@[simp] theorem State.setST_rnd (b : Byte) : (s.setST b).rnd = s.rnd := rfl
@[simp] theorem State.setST_draws (b : Byte) : (s.setST b).draws = s.draws := rfl
@[simp] theorem State.setST_schedule (b : Byte) : (s.setST b).schedule = s.schedule := rfl

@[simp] theorem State.setFault_V (c : FaultCause) : (s.setFault c).V = s.V := rfl
@[simp] theorem State.setFault_I (c : FaultCause) : (s.setFault c).I = s.I := rfl
@[simp] theorem State.setFault_pc (c : FaultCause) : (s.setFault c).pc = s.pc := rfl
@[simp] theorem State.setFault_stack (c : FaultCause) : (s.setFault c).stack = s.stack := rfl
@[simp] theorem State.setFault_sp (c : FaultCause) : (s.setFault c).sp = s.sp := rfl
@[simp] theorem State.setFault_DT (c : FaultCause) : (s.setFault c).DT = s.DT := rfl
@[simp] theorem State.setFault_ST (c : FaultCause) : (s.setFault c).ST = s.ST := rfl
@[simp] theorem State.setFault_mem (c : FaultCause) : (s.setFault c).mem = s.mem := rfl
@[simp] theorem State.setFault_disp (c : FaultCause) : (s.setFault c).disp = s.disp := rfl
@[simp] theorem State.setFault_key (c : FaultCause) : (s.setFault c).key = s.key := rfl
@[simp] theorem State.setFault_dirty (c : FaultCause) : (s.setFault c).dirty = s.dirty := rfl
@[simp] theorem State.setFault_opcode (c : FaultCause) : (s.setFault c).opcode = s.opcode := rfl
@[simp] theorem State.setFault_fault (c : FaultCause) : (s.setFault c).fault = c := rfl
@[simp] theorem State.setFault_diag (c : FaultCause) : (s.setFault c).diag = s.diag := rfl
@[simp] theorem State.setFault_rnd (c : FaultCause) : (s.setFault c).rnd = s.rnd := rfl
@[simp] theorem State.setFault_draws (c : FaultCause) : (s.setFault c).draws = s.draws := rfl
@[simp] theorem State.setFault_schedule (c : FaultCause) : (s.setFault c).schedule = s.schedule := rfl

@[simp] theorem State.setRegRun_I (b : List Byte) : (s.setRegRun b).I = s.I := rfl
@[simp] theorem State.setRegRun_pc (b : List Byte) : (s.setRegRun b).pc = s.pc := rfl
@[simp] theorem State.setRegRun_stack (b : List Byte) : (s.setRegRun b).stack = s.stack := rfl
@[simp] theorem State.setRegRun_sp (b : List Byte) : (s.setRegRun b).sp = s.sp := rfl
@[simp] theorem State.setRegRun_DT (b : List Byte) : (s.setRegRun b).DT = s.DT := rfl
@[simp] theorem State.setRegRun_ST (b : List Byte) : (s.setRegRun b).ST = s.ST := rfl
@[simp] theorem State.setRegRun_mem (b : List Byte) : (s.setRegRun b).mem = s.mem := rfl
@[simp] theorem State.setRegRun_disp (b : List Byte) : (s.setRegRun b).disp = s.disp := rfl
@[simp] theorem State.setRegRun_key (b : List Byte) : (s.setRegRun b).key = s.key := rfl
@[simp] theorem State.setRegRun_dirty (b : List Byte) : (s.setRegRun b).dirty = s.dirty := rfl
@[simp] theorem State.setRegRun_opcode (b : List Byte) : (s.setRegRun b).opcode = s.opcode := rfl
@[simp] theorem State.setRegRun_fault (b : List Byte) : (s.setRegRun b).fault = s.fault := rfl
@[simp] theorem State.setRegRun_diag (b : List Byte) : (s.setRegRun b).diag = s.diag := rfl
@[simp] theorem State.setRegRun_rnd (b : List Byte) : (s.setRegRun b).rnd = s.rnd := rfl
@[simp] theorem State.setRegRun_draws (b : List Byte) : (s.setRegRun b).draws = s.draws := rfl
@[simp] theorem State.setRegRun_schedule (b : List Byte) : (s.setRegRun b).schedule = s.schedule := rfl

@[simp] theorem State.advanceI_V (x : RegNo) : (s.advanceI x).V = s.V := rfl
@[simp] theorem State.advanceI_I (x : RegNo) : (s.advanceI x).I = s.I + zext16 x + 1 := rfl
@[simp] theorem State.advanceI_pc (x : RegNo) : (s.advanceI x).pc = s.pc := rfl
@[simp] theorem State.advanceI_stack (x : RegNo) : (s.advanceI x).stack = s.stack := rfl
@[simp] theorem State.advanceI_sp (x : RegNo) : (s.advanceI x).sp = s.sp := rfl
@[simp] theorem State.advanceI_DT (x : RegNo) : (s.advanceI x).DT = s.DT := rfl
@[simp] theorem State.advanceI_ST (x : RegNo) : (s.advanceI x).ST = s.ST := rfl
@[simp] theorem State.advanceI_mem (x : RegNo) : (s.advanceI x).mem = s.mem := rfl
@[simp] theorem State.advanceI_disp (x : RegNo) : (s.advanceI x).disp = s.disp := rfl
@[simp] theorem State.advanceI_key (x : RegNo) : (s.advanceI x).key = s.key := rfl
@[simp] theorem State.advanceI_dirty (x : RegNo) : (s.advanceI x).dirty = s.dirty := rfl
@[simp] theorem State.advanceI_opcode (x : RegNo) : (s.advanceI x).opcode = s.opcode := rfl
@[simp] theorem State.advanceI_fault (x : RegNo) : (s.advanceI x).fault = s.fault := rfl
@[simp] theorem State.advanceI_diag (x : RegNo) : (s.advanceI x).diag = s.diag := rfl
@[simp] theorem State.advanceI_rnd (x : RegNo) : (s.advanceI x).rnd = s.rnd := rfl
@[simp] theorem State.advanceI_draws (x : RegNo) : (s.advanceI x).draws = s.draws := rfl
@[simp] theorem State.advanceI_schedule (x : RegNo) : (s.advanceI x).schedule = s.schedule := rfl

@[simp] theorem latch_V (r : Byte) (w : Word) : (latch r w s).V = s.V := rfl
@[simp] theorem latch_I (r : Byte) (w : Word) : (latch r w s).I = s.I := rfl
@[simp] theorem latch_pc (r : Byte) (w : Word) : (latch r w s).pc = s.pc + 2 := rfl
@[simp] theorem latch_stack (r : Byte) (w : Word) : (latch r w s).stack = s.stack := rfl
@[simp] theorem latch_sp (r : Byte) (w : Word) : (latch r w s).sp = s.sp := rfl
@[simp] theorem latch_DT (r : Byte) (w : Word) : (latch r w s).DT = s.DT := rfl
@[simp] theorem latch_ST (r : Byte) (w : Word) : (latch r w s).ST = s.ST := rfl
@[simp] theorem latch_mem (r : Byte) (w : Word) : (latch r w s).mem = s.mem := rfl
@[simp] theorem latch_disp (r : Byte) (w : Word) : (latch r w s).disp = s.disp := rfl
@[simp] theorem latch_key (r : Byte) (w : Word) : (latch r w s).key = s.key := rfl
@[simp] theorem latch_dirty (r : Byte) (w : Word) : (latch r w s).dirty = s.dirty := rfl
@[simp] theorem latch_opcode (r : Byte) (w : Word) : (latch r w s).opcode = w := rfl
@[simp] theorem latch_fault (r : Byte) (w : Word) : (latch r w s).fault = s.fault := rfl
@[simp] theorem latch_diag (r : Byte) (w : Word) : (latch r w s).diag = none := rfl
@[simp] theorem latch_rnd (r : Byte) (w : Word) : (latch r w s).rnd = r := rfl
@[simp] theorem latch_draws (r : Byte) (w : Word) : (latch r w s).draws = s.draws := rfl
@[simp] theorem latch_schedule (r : Byte) (w : Word) : (latch r w s).schedule = s.schedule := rfl

@[simp] theorem emitUnknown_V (w a : Word) : (emitUnknown w a s).V = s.V := rfl
@[simp] theorem emitUnknown_I (w a : Word) : (emitUnknown w a s).I = s.I := rfl
@[simp] theorem emitUnknown_pc (w a : Word) : (emitUnknown w a s).pc = s.pc := rfl
@[simp] theorem emitUnknown_stack (w a : Word) : (emitUnknown w a s).stack = s.stack := rfl
@[simp] theorem emitUnknown_sp (w a : Word) : (emitUnknown w a s).sp = s.sp := rfl
@[simp] theorem emitUnknown_DT (w a : Word) : (emitUnknown w a s).DT = s.DT := rfl
@[simp] theorem emitUnknown_ST (w a : Word) : (emitUnknown w a s).ST = s.ST := rfl
@[simp] theorem emitUnknown_mem (w a : Word) : (emitUnknown w a s).mem = s.mem := rfl
@[simp] theorem emitUnknown_disp (w a : Word) : (emitUnknown w a s).disp = s.disp := rfl
@[simp] theorem emitUnknown_key (w a : Word) : (emitUnknown w a s).key = s.key := rfl
@[simp] theorem emitUnknown_dirty (w a : Word) : (emitUnknown w a s).dirty = s.dirty := rfl
@[simp] theorem emitUnknown_opcode (w a : Word) : (emitUnknown w a s).opcode = s.opcode := rfl
@[simp] theorem emitUnknown_fault (w a : Word) : (emitUnknown w a s).fault = s.fault := rfl
@[simp] theorem emitUnknown_diag (w a : Word) : (emitUnknown w a s).diag = some ⟨w, a⟩ := rfl
@[simp] theorem emitUnknown_rnd (w a : Word) : (emitUnknown w a s).rnd = s.rnd := rfl
@[simp] theorem emitUnknown_draws (w a : Word) : (emitUnknown w a s).draws = s.draws := rfl
@[simp] theorem emitUnknown_schedule (w a : Word) : (emitUnknown w a s).schedule = s.schedule := rfl

@[simp] theorem noEvent_V : (noEvent s).V = s.V := rfl
@[simp] theorem noEvent_I : (noEvent s).I = s.I := rfl
@[simp] theorem noEvent_pc : (noEvent s).pc = s.pc := rfl
@[simp] theorem noEvent_stack : (noEvent s).stack = s.stack := rfl
@[simp] theorem noEvent_sp : (noEvent s).sp = s.sp := rfl
@[simp] theorem noEvent_DT : (noEvent s).DT = s.DT := rfl
@[simp] theorem noEvent_ST : (noEvent s).ST = s.ST := rfl
@[simp] theorem noEvent_mem : (noEvent s).mem = s.mem := rfl
@[simp] theorem noEvent_disp : (noEvent s).disp = s.disp := rfl
@[simp] theorem noEvent_key : (noEvent s).key = s.key := rfl
@[simp] theorem noEvent_dirty : (noEvent s).dirty = s.dirty := rfl
@[simp] theorem noEvent_opcode : (noEvent s).opcode = s.opcode := rfl
@[simp] theorem noEvent_fault : (noEvent s).fault = s.fault := rfl
@[simp] theorem noEvent_diag : (noEvent s).diag = none := rfl
@[simp] theorem noEvent_rnd : (noEvent s).rnd = s.rnd := rfl
@[simp] theorem noEvent_draws : (noEvent s).draws = s.draws := rfl
@[simp] theorem noEvent_schedule : (noEvent s).schedule = s.schedule := rfl

@[simp] theorem flagThenResult_I (f g : Byte → Byte → Byte) (x y : RegNo) : (flagThenResult f g x y s).I = s.I := rfl
@[simp] theorem flagThenResult_pc (f g : Byte → Byte → Byte) (x y : RegNo) : (flagThenResult f g x y s).pc = s.pc := rfl
@[simp] theorem flagThenResult_stack (f g : Byte → Byte → Byte) (x y : RegNo) : (flagThenResult f g x y s).stack = s.stack := rfl
@[simp] theorem flagThenResult_sp (f g : Byte → Byte → Byte) (x y : RegNo) : (flagThenResult f g x y s).sp = s.sp := rfl
@[simp] theorem flagThenResult_DT (f g : Byte → Byte → Byte) (x y : RegNo) : (flagThenResult f g x y s).DT = s.DT := rfl
@[simp] theorem flagThenResult_ST (f g : Byte → Byte → Byte) (x y : RegNo) : (flagThenResult f g x y s).ST = s.ST := rfl
@[simp] theorem flagThenResult_mem (f g : Byte → Byte → Byte) (x y : RegNo) : (flagThenResult f g x y s).mem = s.mem := rfl
@[simp] theorem flagThenResult_disp (f g : Byte → Byte → Byte) (x y : RegNo) : (flagThenResult f g x y s).disp = s.disp := rfl
@[simp] theorem flagThenResult_key (f g : Byte → Byte → Byte) (x y : RegNo) : (flagThenResult f g x y s).key = s.key := rfl
@[simp] theorem flagThenResult_dirty (f g : Byte → Byte → Byte) (x y : RegNo) : (flagThenResult f g x y s).dirty = s.dirty := rfl
@[simp] theorem flagThenResult_opcode (f g : Byte → Byte → Byte) (x y : RegNo) : (flagThenResult f g x y s).opcode = s.opcode := rfl
@[simp] theorem flagThenResult_fault (f g : Byte → Byte → Byte) (x y : RegNo) : (flagThenResult f g x y s).fault = s.fault := rfl
@[simp] theorem flagThenResult_diag (f g : Byte → Byte → Byte) (x y : RegNo) : (flagThenResult f g x y s).diag = s.diag := rfl
@[simp] theorem flagThenResult_rnd (f g : Byte → Byte → Byte) (x y : RegNo) : (flagThenResult f g x y s).rnd = s.rnd := rfl
@[simp] theorem flagThenResult_draws (f g : Byte → Byte → Byte) (x y : RegNo) : (flagThenResult f g x y s).draws = s.draws := rfl
@[simp] theorem flagThenResult_schedule (f g : Byte → Byte → Byte) (x y : RegNo) : (flagThenResult f g x y s).schedule = s.schedule := rfl

@[simp] theorem drawSprite_I (b : List Byte) (x0 y0 : Nat) : (drawSprite b x0 y0 s).I = s.I := rfl
@[simp] theorem drawSprite_pc (b : List Byte) (x0 y0 : Nat) : (drawSprite b x0 y0 s).pc = s.pc := rfl
@[simp] theorem drawSprite_stack (b : List Byte) (x0 y0 : Nat) : (drawSprite b x0 y0 s).stack = s.stack := rfl
@[simp] theorem drawSprite_sp (b : List Byte) (x0 y0 : Nat) : (drawSprite b x0 y0 s).sp = s.sp := rfl
@[simp] theorem drawSprite_DT (b : List Byte) (x0 y0 : Nat) : (drawSprite b x0 y0 s).DT = s.DT := rfl
@[simp] theorem drawSprite_ST (b : List Byte) (x0 y0 : Nat) : (drawSprite b x0 y0 s).ST = s.ST := rfl
@[simp] theorem drawSprite_mem (b : List Byte) (x0 y0 : Nat) : (drawSprite b x0 y0 s).mem = s.mem := rfl
@[simp] theorem drawSprite_disp (b : List Byte) (x0 y0 : Nat) : (drawSprite b x0 y0 s).disp = (drawRows b x0 y0 (s.disp, false)).1 := rfl
@[simp] theorem drawSprite_key (b : List Byte) (x0 y0 : Nat) : (drawSprite b x0 y0 s).key = s.key := rfl
@[simp] theorem drawSprite_dirty (b : List Byte) (x0 y0 : Nat) : (drawSprite b x0 y0 s).dirty = true := rfl
@[simp] theorem drawSprite_opcode (b : List Byte) (x0 y0 : Nat) : (drawSprite b x0 y0 s).opcode = s.opcode := rfl
@[simp] theorem drawSprite_fault (b : List Byte) (x0 y0 : Nat) : (drawSprite b x0 y0 s).fault = s.fault := rfl
@[simp] theorem drawSprite_diag (b : List Byte) (x0 y0 : Nat) : (drawSprite b x0 y0 s).diag = s.diag := rfl
@[simp] theorem drawSprite_rnd (b : List Byte) (x0 y0 : Nat) : (drawSprite b x0 y0 s).rnd = s.rnd := rfl
@[simp] theorem drawSprite_draws (b : List Byte) (x0 y0 : Nat) : (drawSprite b x0 y0 s).draws = s.draws := rfl
@[simp] theorem drawSprite_schedule (b : List Byte) (x0 y0 : Nat) : (drawSprite b x0 y0 s).schedule = s.schedule := rfl

@[simp] theorem skipIf_V (c : Bool) : (skipIf c s).V = s.V := by cases c <;> rfl
@[simp] theorem skipIf_I (c : Bool) : (skipIf c s).I = s.I := by cases c <;> rfl
@[simp] theorem skipIf_stack (c : Bool) : (skipIf c s).stack = s.stack := by cases c <;> rfl
@[simp] theorem skipIf_sp (c : Bool) : (skipIf c s).sp = s.sp := by cases c <;> rfl
@[simp] theorem skipIf_DT (c : Bool) : (skipIf c s).DT = s.DT := by cases c <;> rfl
@[simp] theorem skipIf_ST (c : Bool) : (skipIf c s).ST = s.ST := by cases c <;> rfl
@[simp] theorem skipIf_mem (c : Bool) : (skipIf c s).mem = s.mem := by cases c <;> rfl
@[simp] theorem skipIf_disp (c : Bool) : (skipIf c s).disp = s.disp := by cases c <;> rfl
@[simp] theorem skipIf_key (c : Bool) : (skipIf c s).key = s.key := by cases c <;> rfl
@[simp] theorem skipIf_dirty (c : Bool) : (skipIf c s).dirty = s.dirty := by cases c <;> rfl
@[simp] theorem skipIf_opcode (c : Bool) : (skipIf c s).opcode = s.opcode := by cases c <;> rfl
@[simp] theorem skipIf_fault (c : Bool) : (skipIf c s).fault = s.fault := by cases c <;> rfl
@[simp] theorem skipIf_diag (c : Bool) : (skipIf c s).diag = s.diag := by cases c <;> rfl
@[simp] theorem skipIf_rnd (c : Bool) : (skipIf c s).rnd = s.rnd := by cases c <;> rfl
@[simp] theorem skipIf_draws (c : Bool) : (skipIf c s).draws = s.draws := by cases c <;> rfl
@[simp] theorem skipIf_schedule (c : Bool) : (skipIf c s).schedule = s.schedule := by cases c <;> rfl
@[simp] theorem skipIf_pc (c : Bool) : (skipIf c s).pc = if c then s.pc + 2 else s.pc := by cases c <;> rfl

/-- Reading a register after writing one (R10). -/
@[simp] theorem State.reg_setReg (r q : RegNo) (b : Byte) :
    (s.setReg r b).reg q = if q = r then b else s.reg q := by
  unfold State.reg State.setReg
  by_cases h : q = r
  · subst h; simp
  · have : r.toNat ≠ q.toNat := fun e => h (BitVec.eq_of_toNat_eq e.symm)
    simp [this, h]

/-- Two register files that read alike are alike. -/
theorem regs_ext {s t : State} (h : ∀ r, s.reg r = t.reg r) : s.V = t.V := by
  apply Vector.ext
  intro k hk
  simpa [State.reg, Nat.mod_eq_of_lt hk] using h (BitVec.ofNat 4 k)

/-- `reg` reads only the register file. -/
theorem reg_congr {s t : State} (h : s.V = t.V) (r : RegNo) : s.reg r = t.reg r := by simp [State.reg, h]

end Sys2Proof.Machine
end

