-- ==== Sys2Proof/Laws/Operands.lean ====
section
/-! SUPPORT. One lemma per shared operation: what it answers, and when it answers none. -/

namespace Sys2Proof.Machine

/-! ### The range check (R47) -/

/-- A run of at least one byte is in range when its last address is one. -/
theorem inRange_iff (addr : Word) (n : Nat) : inRange addr n = true ↔ n = 0 ∨ addr.toNat + n ≤ Config.memSize := by
  simp only [inRange, Bool.or_eq_true, beq_iff_eq, decide_eq_true_eq, Config.memSize, Config.lastAddr]
  omega

/-- `MemRead` in range (R46). -/
theorem memRead_of_inRange {addr : Word} {n : Nat} (h : n = 0 ∨ addr.toNat + n ≤ Config.memSize) (s : State) :
    memRead addr n s = some (s.mem.readList addr.toNat n) := if_pos ((inRange_iff addr n).2 h)

/-- `MemRead` out of range (R47). -/
theorem memRead_of_outside {addr : Word} {n : Nat} (h : n ≠ 0 ∧ Config.memSize < addr.toNat + n) (s : State) :
    memRead addr n s = none := if_neg fun hc => by
  have := (inRange_iff addr n).1 hc
  omega

/-- `MemWrite` in range (R46). -/
theorem memWrite_of_inRange {addr : Word} {v : List Byte} (h : addr.toNat + v.length ≤ Config.memSize) (s : State) :
    memWrite addr v s = some { s with mem := s.mem.writeList addr.toNat v } :=
  if_pos ((inRange_iff addr v.length).2 (Or.inr h))

/-- `MemWrite` out of range writes nothing (R47). -/
theorem memWrite_of_outside {addr : Word} {v : List Byte} (h : v ≠ [] ∧ Config.memSize < addr.toNat + v.length)
    (s : State) : memWrite addr v s = none := if_neg fun hc => by
  have := (inRange_iff addr v.length).1 hc
  have := List.length_pos_iff.2 h.1
  omega

/-! ### The stack (R80, R82) -/

/-- The push of a stack with a free entry (R82). -/
theorem push_of_lt {s : State} (h : s.sp.val < 16) (w : Word) :
    s.push w = some { s with stack := s.stack.set s.sp.val w h, sp := ⟨s.sp.val + 1, by omega⟩ } := dif_pos h

/-- The push of a full stack (R82). -/
theorem push_of_full {s : State} (h : s.sp.val = 16) (w : Word) : s.push w = none := dif_neg (by omega)

/-- The pop of a stack that holds an address (R80). -/
theorem pop_of_pos {s : State} (h : 0 < s.sp.val) :
    s.pop = some (s.stack[s.sp.val - 1]'(by omega), { s with sp := ⟨s.sp.val - 1, by omega⟩ }) := dif_pos h

/-- The pop of an empty stack (R80). -/
theorem pop_of_empty {s : State} (h : s.sp.val = 0) : s.pop = none := dif_neg (by omega)

/-! ### Keys (R150, R152) -/

/-- A key number up to 15 reads its latch entry. -/
theorem keyOperand_of_lt {s : State} {x : RegNo} (h : (s.reg x).toNat < 16) :
    keyOperand x s = some (s.key[(s.reg x).toNat]'h) := by simp [keyOperand, h]

/-- A key number above 15 is out of range. -/
theorem keyOperand_of_ge {s : State} {x : RegNo} (h : 16 ≤ (s.reg x).toNat) : keyOperand x s = none := by
  simp [keyOperand, h]

/-- No key is down (R152). -/
theorem lowestKey_none (s : State) : lowestKey s = none ↔ ∀ k : Fin 16, s.key[k] = false := by
  simp [lowestKey]

/-- The lowest pressed key (R152, D11). -/
theorem lowestKey_of_first {s : State} {k : Fin 16} (hk : s.key[k] = true) (hlow : ∀ j : Fin 16, j < k → s.key[j] = false) :
    lowestKey s = some k := by
  cases h : lowestKey s with
  | none =>
    have := (lowestKey_none s).1 h k
    simp_all
  | some i =>
    have hi : s.key[i] = true := by simpa using List.find?_some h
    rw [lowestKey, List.find?_eq_some_iff_getElem] at h
    obtain ⟨-, n, hn, rfl, hbefore⟩ := h
    have e : (List.finRange 16)[n] = ⟨n, by simpa using hn⟩ := by simp
    rw [e] at hi
    rcases Nat.lt_trichotomy n k.val with h1 | h1 | h1
    · have := hlow ⟨n, by simpa using hn⟩ h1
      simp_all
    · rw [e]; exact congrArg some (Fin.ext h1)
    · have := hbefore k.val h1
      simp_all

/-! ### Register runs (R125, R126) -/

/-- `[V[0], ..., V[x]]` has x + 1 bytes. -/
@[simp] theorem length_regRun (s : State) (x : RegNo) : (s.regRun x).length = x.toNat + 1 := by
  have := x.isLt
  simp [State.regRun]
  omega

/-- Byte k of the run is V[k]. -/
theorem getElem_regRun (s : State) (x : RegNo) (k : Nat) (h : k < (s.regRun x).length) :
    (s.regRun x)[k] = s.reg (BitVec.ofNat 4 k) := by
  have := x.isLt
  simp only [length_regRun] at h
  have hk : k % 16 = k := Nat.mod_eq_of_lt (by omega)
  simp [State.regRun, State.reg, hk]

/-- A loaded run sets the registers it has a byte for and no other. -/
theorem reg_setRegRun (s : State) (b : List Byte) (r : RegNo) : (s.setRegRun b).reg r = b.getD r.toNat (s.reg r) := by
  simp [State.setRegRun, State.reg]

/-! ### The two writes of a flag-producing instruction (R101) -/

/-- Every register after a flag-producing instruction: the flag is written first, the result second, from the
registers as they then stand (R101). -/
theorem reg_flagThenResult (f g : Byte → Byte → Byte) (x y r : RegNo) (s : State) :
    (flagThenResult f g x y s).reg r =
      if r = x then
        g (if x = VF then f (s.reg x) (s.reg y) else s.reg x) (if y = VF then f (s.reg x) (s.reg y) else s.reg y)
      else if r = VF then f (s.reg x) (s.reg y) else s.reg r := by
  simp only [flagThenResult, State.reg_setReg]

/-- A flag is 0 or 1 (R11). -/
theorem toNat_flagByte (c : Bool) : (flagByte c).toNat = if c then 1 else 0 := by cases c <;> rfl

/-- Three digits (R123). -/
@[simp] theorem length_bcdDigits (v : Byte) : (bcdDigits v).length = 3 := rfl

/-- A drawn sprite leaves every register but VF (R142). -/
theorem reg_drawSprite (b : List Byte) (x0 y0 : Nat) (s : State) (r : RegNo) :
    (drawSprite b x0 y0 s).reg r = if r = VF then flagByte (drawRows b x0 y0 (s.disp, false)).2 else s.reg r := by
  rw [← State.reg_setReg]
  rfl

/-! ### The fetch (R48) -/

/-- A fetch inside memory (R44, R48). -/
theorem fetchWord_of_le {s : State} (h : s.pc.toNat ≤ 0xFFE) :
    fetchWord s = some (wordOfBytes (s.mem.read s.pc.toNat) (s.mem.read (s.pc.toNat + 1))) := if_neg (by omega)

/-- A fetch outside memory (R48). -/
theorem fetchWord_of_gt {s : State} (h : 0xFFE < s.pc.toNat) : fetchWord s = none := if_pos h

end Sys2Proof.Machine
end

