-- ==== Sys2Proof/Laws/Flags.lean ====
section
/-! SUPPORT. The results and the flags of the register unit as numbers (41_register_alu R100, R108 to R112). -/

namespace Sys2Proof.Machine

/-- Addition is modulo 256 (R100). -/
theorem toNat_addByte (a b : Byte) : (a + b).toNat = (a.toNat + b.toNat) % 256 := by simp

/-- Subtraction is modulo 256 (R100). -/
theorem toNat_subByte (a b : Byte) : (a - b).toNat = (256 + a.toNat - b.toNat) % 256 := by
  have := b.isLt
  rw [BitVec.toNat_sub]
  omega

/-- A right shift by one is a division by 2 (R110). -/
theorem toNat_shrByte (b : Byte) : (b >>> 1).toNat = b.toNat / 2 := by simp [Nat.shiftRight_eq_div_pow]

/-- A left shift by one is twice the byte, modulo 256 (R112). -/
theorem toNat_shlByte (b : Byte) : (b <<< 1).toNat = 2 * b.toNat % 256 := by simp [Nat.shiftLeft_eq, Nat.mul_comm]

/-- The carry (R108). -/
theorem toNat_carryFlag (a b : Byte) : (carryFlag a b).toNat = if a.toNat + b.toNat > 255 then 1 else 0 := by
  have := a.isLt
  simp only [carryFlag, toNat_flagByte, decide_eq_true_eq]
  split_ifs <;> omega

/-- No borrow in V[x] - V[y] (R109). -/
theorem toNat_subFlag (a b : Byte) : (subFlag a b).toNat = if a.toNat ≥ b.toNat then 1 else 0 := by
  simp only [subFlag, toNat_flagByte, Bool.not_eq_true', decide_eq_false_iff_not]
  split_ifs <;> omega

/-- No borrow in V[y] - V[x] (R111). -/
theorem toNat_subnFlag (a b : Byte) : (subnFlag a b).toNat = if b.toNat ≥ a.toNat then 1 else 0 := by
  simp only [subnFlag, toNat_flagByte, Bool.not_eq_true', decide_eq_false_iff_not]
  split_ifs <;> omega

/-- The bit shifted out on the right (R110). -/
theorem toNat_shrFlag (a b : Byte) : (shrFlag a b).toNat = b.toNat % 2 := by
  simp only [shrFlag, toNat_flagByte, BitVec.getLsbD, Nat.testBit_zero, decide_eq_true_eq]
  split_ifs <;> omega

/-- The bit shifted out on the left (R112). -/
theorem toNat_shlFlag (a b : Byte) : (shlFlag a b).toNat = b.toNat / 128 := by
  have := b.isLt
  simp only [shlFlag, toNat_flagByte, BitVec.getLsbD, Nat.testBit_eq_decide_div_mod_eq, decide_eq_true_eq]
  split_ifs <;> omega

end Sys2Proof.Machine
end

