-- ==== Sys2Proof/Laws/PerInstr.lean ====
section
/-! SUPPORT. The per-instruction family `Encoding`: the word of every instruction is one the spec lists as an instruction (30_encoding R65, R67). -/

namespace Sys2Proof.Laws.Encoding

/-- The word of the instruction is none of the unknown words (R67). -/
def Statement (i : Instr) : Prop := wordWellFormed (encode i) = true

theorem cls : Statement .cls := by
  unfold Statement
  decide
theorem ret : Statement .ret := by
  unfold Statement
  decide
theorem jp (nnn : Addr12) : Statement (.jp nnn) := by
  simp [Statement, encode, wordWellFormed, wordClass_fmtNNN]
theorem call (nnn : Addr12) : Statement (.call nnn) := by
  simp [Statement, encode, wordWellFormed, wordClass_fmtNNN]
theorem seImm (x : RegNo) (nn : Byte) : Statement (.seImm x nn) := by
  simp [Statement, encode, wordWellFormed, wordClass_fmtXNN]
theorem sneImm (x : RegNo) (nn : Byte) : Statement (.sneImm x nn) := by
  simp [Statement, encode, wordWellFormed, wordClass_fmtXNN]
theorem seReg (x : RegNo) (y : RegNo) : Statement (.seReg x y) := by
  simp [Statement, encode, wordWellFormed, wordClass_fmtXYN, lowNibbleZero, mod16_fmtXYN]
theorem ldImm (x : RegNo) (nn : Byte) : Statement (.ldImm x nn) := by
  simp [Statement, encode, wordWellFormed, wordClass_fmtXNN]
theorem addImm (x : RegNo) (nn : Byte) : Statement (.addImm x nn) := by
  simp [Statement, encode, wordWellFormed, wordClass_fmtXNN]
theorem ldReg (x : RegNo) (y : RegNo) : Statement (.ldReg x y) := by
  simp [Statement, encode, wordWellFormed, wordClass_fmtXYN, class8Ok, mod16_fmtXYN]
theorem orReg (x : RegNo) (y : RegNo) : Statement (.orReg x y) := by
  simp [Statement, encode, wordWellFormed, wordClass_fmtXYN, class8Ok, mod16_fmtXYN]
theorem andReg (x : RegNo) (y : RegNo) : Statement (.andReg x y) := by
  simp [Statement, encode, wordWellFormed, wordClass_fmtXYN, class8Ok, mod16_fmtXYN]
theorem xorReg (x : RegNo) (y : RegNo) : Statement (.xorReg x y) := by
  simp [Statement, encode, wordWellFormed, wordClass_fmtXYN, class8Ok, mod16_fmtXYN]
theorem addReg (x : RegNo) (y : RegNo) : Statement (.addReg x y) := by
  simp [Statement, encode, wordWellFormed, wordClass_fmtXYN, class8Ok, mod16_fmtXYN]
theorem subReg (x : RegNo) (y : RegNo) : Statement (.subReg x y) := by
  simp [Statement, encode, wordWellFormed, wordClass_fmtXYN, class8Ok, mod16_fmtXYN]
theorem shrReg (x : RegNo) (y : RegNo) : Statement (.shrReg x y) := by
  simp [Statement, encode, wordWellFormed, wordClass_fmtXYN, class8Ok, mod16_fmtXYN]
theorem subnReg (x : RegNo) (y : RegNo) : Statement (.subnReg x y) := by
  simp [Statement, encode, wordWellFormed, wordClass_fmtXYN, class8Ok, mod16_fmtXYN]
theorem shlReg (x : RegNo) (y : RegNo) : Statement (.shlReg x y) := by
  simp [Statement, encode, wordWellFormed, wordClass_fmtXYN, class8Ok, mod16_fmtXYN]
theorem sneReg (x : RegNo) (y : RegNo) : Statement (.sneReg x y) := by
  simp [Statement, encode, wordWellFormed, wordClass_fmtXYN, lowNibbleZero, mod16_fmtXYN]
theorem ldI (nnn : Addr12) : Statement (.ldI nnn) := by
  simp [Statement, encode, wordWellFormed, wordClass_fmtNNN]
theorem jpV0 (nnn : Addr12) : Statement (.jpV0 nnn) := by
  simp [Statement, encode, wordWellFormed, wordClass_fmtNNN]
theorem rnd (x : RegNo) (nn : Byte) : Statement (.rnd x nn) := by
  simp [Statement, encode, wordWellFormed, wordClass_fmtXNN]
theorem drw (x : RegNo) (y : RegNo) (n : BitVec 4) : Statement (.drw x y n) := by
  simp [Statement, encode, wordWellFormed, wordClass_fmtXYN]
theorem skp (x : RegNo) : Statement (.skp x) := by
  simp [Statement, encode, wordWellFormed, wordClass_fmtXNN, classEOk, mod256_fmtXNN]
theorem sknp (x : RegNo) : Statement (.sknp x) := by
  simp [Statement, encode, wordWellFormed, wordClass_fmtXNN, classEOk, mod256_fmtXNN]
theorem ldDT (x : RegNo) : Statement (.ldDT x) := by
  simp [Statement, encode, wordWellFormed, wordClass_fmtXNN, classFOk, mod256_fmtXNN]
theorem ldKey (x : RegNo) : Statement (.ldKey x) := by
  simp [Statement, encode, wordWellFormed, wordClass_fmtXNN, classFOk, mod256_fmtXNN]
theorem setDT (x : RegNo) : Statement (.setDT x) := by
  simp [Statement, encode, wordWellFormed, wordClass_fmtXNN, classFOk, mod256_fmtXNN]
theorem setST (x : RegNo) : Statement (.setST x) := by
  simp [Statement, encode, wordWellFormed, wordClass_fmtXNN, classFOk, mod256_fmtXNN]
theorem addI (x : RegNo) : Statement (.addI x) := by
  simp [Statement, encode, wordWellFormed, wordClass_fmtXNN, classFOk, mod256_fmtXNN]
theorem ldFont (x : RegNo) : Statement (.ldFont x) := by
  simp [Statement, encode, wordWellFormed, wordClass_fmtXNN, classFOk, mod256_fmtXNN]
theorem bcd (x : RegNo) : Statement (.bcd x) := by
  simp [Statement, encode, wordWellFormed, wordClass_fmtXNN, classFOk, mod256_fmtXNN]
theorem storeRegs (x : RegNo) : Statement (.storeRegs x) := by
  simp [Statement, encode, wordWellFormed, wordClass_fmtXNN, classFOk, mod256_fmtXNN]
theorem loadRegs (x : RegNo) : Statement (.loadRegs x) := by
  simp [Statement, encode, wordWellFormed, wordClass_fmtXNN, classFOk, mod256_fmtXNN]

end Sys2Proof.Laws.Encoding
end

