-- ==== Sys2Proof/Laws/Step.lean ====
section
/-! SUPPORT. What a step is and what it can answer, case by case (30_encoding R60, 60_exceptions R173, R187). -/

namespace Sys2Proof.Machine

/-- With nothing scheduled the host issues STEP with a free random byte. -/
theorem step_unscheduled {s : State} (h : s.schedule = []) : step s = opStep (Config.rnd s.draws) s := by
  simp [step, nextOperation, h]

/-- A scheduled operation is the next one. -/
theorem step_scheduled {s : State} {op : HostOp} {rest : List HostOp} (h : s.schedule = op :: rest) :
    step s = perform op { s with schedule := rest } := by
  simp [step, nextOperation, h]

/-- A faulted machine only withdraws its event (R173). -/
theorem opStep_faulted {s : State} (h : ¬ s.Running) (r : Byte) : opStep r s = .next (noEvent s) := if_neg h

/-- A fetch outside memory (R48). -/
theorem opStep_fetchFault {s : State} (h : s.Running) (hf : fetchWord s = none) (r : Byte) :
    opStep r s = .next ((noEvent s).setFault .fetchRange) := by
  simp [opStep, h, hf, takeFault]

/-- A word that decodes runs its instruction (R60). -/
theorem opStep_known {s : State} (h : s.Running) {w : Word} (hf : fetchWord s = some w) {i : Instr}
    (hd : decodeWord w = some i) (r : Byte) : opStep r s = exec i (latch r w s) := by
  simp [opStep, h, hf, hd]

/-- A word that does not decode is reported and skipped (R68). -/
theorem opStep_unknown {s : State} (h : s.Running) {w : Word} (hf : fetchWord s = some w)
    (hd : decodeWord w = none) (r : Byte) : opStep r s = .next (emitUnknown w s.pc (latch r w s)) := by
  simp [opStep, h, hf, hd]

/-- Reset memory is canonical (R200). -/
theorem reset_memoryCanonical : State.reset.MemoryCanonical := Memory.wf_nil

/-! ### What an instruction that can fault, skip or wait does: one inversion per instruction -/

/-- `00EE` pops or underflows (R80). -/
theorem execRet_cases {s t : State} (h : execRet s = .next t) :
    (∃ hp : 0 < s.sp.val, t = { s with pc := s.stack[s.sp.val - 1]'(by omega), sp := ⟨s.sp.val - 1, by omega⟩ }) ∨
    (s.sp.val = 0 ∧ t = s.setFault .stackUnderflow) := by
  unfold execRet at h
  by_cases hs : 0 < s.sp.val
  · rw [pop_of_pos hs] at h
    exact Or.inl ⟨hs, by simpa [State.setPc] using h.symm⟩
  · rw [pop_of_empty (by omega)] at h
    exact Or.inr ⟨by omega, by simpa [takeFault] using h.symm⟩

/-- `2nnn` pushes or overflows (R82). -/
theorem execCall_cases {nnn : Addr12} {s t : State} (h : execCall nnn s = .next t) :
    (∃ hp : s.sp.val < 16, t = { s with pc := zext16 nnn, stack := s.stack.set s.sp.val s.pc hp, sp := ⟨s.sp.val + 1, by omega⟩ }) ∨
    (s.sp.val = 16 ∧ t = s.setFault .stackOverflow) := by
  unfold execCall at h
  by_cases hs : s.sp.val < 16
  · rw [push_of_lt hs] at h
    exact Or.inl ⟨hs, by simpa [State.setPc] using h.symm⟩
  · rw [push_of_full (by omega)] at h
    exact Or.inr ⟨by omega, by simpa [takeFault] using h.symm⟩

/-- `Fx33` stores the digits or is out of range (R47, R123). -/
theorem execBcd_cases {x : RegNo} {s t : State} (h : execBcd x s = .next t) :
    (s.I.toNat + 3 ≤ Config.memSize ∧ t = { s with mem := s.mem.writeList s.I.toNat (bcdDigits (s.reg x)) }) ∨
    (Config.memSize < s.I.toNat + 3 ∧ t = s.setFault .memRange) := by
  unfold execBcd at h
  by_cases hs : s.I.toNat + (bcdDigits (s.reg x)).length ≤ Config.memSize
  · rw [memWrite_of_inRange hs] at h
    exact Or.inl ⟨hs, by simpa using h.symm⟩
  · rw [memWrite_of_outside ⟨by simp [bcdDigits], Nat.lt_of_not_le hs⟩] at h
    exact Or.inr ⟨Nat.lt_of_not_le hs, by simpa [takeFault] using h.symm⟩

/-- `Fx55` stores the run and advances I, or is out of range (R47, R125). -/
theorem execStoreRegs_cases {x : RegNo} {s t : State} (h : execStoreRegs x s = .next t) :
    (s.I.toNat + (x.toNat + 1) ≤ Config.memSize ∧
      t = { s with mem := s.mem.writeList s.I.toNat (s.regRun x), I := s.I + zext16 x + 1 }) ∨
    (Config.memSize < s.I.toNat + (x.toNat + 1) ∧ t = s.setFault .memRange) := by
  unfold execStoreRegs at h
  have hl := length_regRun s x
  by_cases hs : s.I.toNat + (x.toNat + 1) ≤ Config.memSize
  · rw [memWrite_of_inRange (by rw [hl]; exact hs)] at h
    exact Or.inl ⟨hs, by simpa [State.advanceI, State.setI] using h.symm⟩
  · rw [memWrite_of_outside ⟨by intro hc; simp [hc] at hl, by rw [hl]; omega⟩] at h
    exact Or.inr ⟨by omega, by simpa [takeFault] using h.symm⟩

/-- `Fx65` loads the run and advances I, or is out of range (R47, R126). -/
theorem execLoadRegs_cases {x : RegNo} {s t : State} (h : execLoadRegs x s = .next t) :
    (s.I.toNat + (x.toNat + 1) ≤ Config.memSize ∧
      t = (s.setRegRun (s.mem.readList s.I.toNat (x.toNat + 1))).advanceI x) ∨
    (Config.memSize < s.I.toNat + (x.toNat + 1) ∧ t = s.setFault .memRange) := by
  unfold execLoadRegs at h
  by_cases hs : s.I.toNat + (x.toNat + 1) ≤ Config.memSize
  · rw [memRead_of_inRange (Or.inr hs)] at h
    exact Or.inl ⟨hs, by simpa using h.symm⟩
  · rw [memRead_of_outside ⟨by simp, by omega⟩] at h
    exact Or.inr ⟨by omega, by simpa [takeFault] using h.symm⟩

/-- `Dxyn` draws, or is out of range (R47, R142). -/
theorem execDrw_cases {x y : RegNo} {n : BitVec 4} {s t : State} (h : execDrw x y n s = .next t) :
    ((n.toNat = 0 ∨ s.I.toNat + n.toNat ≤ Config.memSize) ∧
      t = drawSprite (s.mem.readList s.I.toNat n.toNat) ((s.reg x).toNat % 64) ((s.reg y).toNat % 32) s) ∨
    (n.toNat ≠ 0 ∧ Config.memSize < s.I.toNat + n.toNat ∧ t = s.setFault .memRange) := by
  unfold execDrw at h
  by_cases hs : n.toNat = 0 ∨ s.I.toNat + n.toNat ≤ Config.memSize
  · rw [memRead_of_inRange hs] at h
    exact Or.inl ⟨hs, by simpa using h.symm⟩
  · rw [memRead_of_outside (by omega)] at h
    exact Or.inr ⟨by omega, by omega, by simpa [takeFault] using h.symm⟩

/-- A skip skips or does not (R84). -/
theorem skipIf_cases (c : Bool) (s : State) :
    (c = true ∧ skipIf c s = { s with pc := s.pc + 2 }) ∨ (c = false ∧ skipIf c s = s) := by
  cases c <;> simp [skipIf, State.setPc]

/-- `Ex9E` skips or not, or the key number is out of range (R150). -/
theorem execSkp_cases {x : RegNo} {s t : State} (h : execSkp x s = .next t) :
    (∃ hk : (s.reg x).toNat < 16, t = skipIf (s.key[(s.reg x).toNat]'hk) s) ∨
    (15 < (s.reg x).toNat ∧ t = s.setFault .keyIndex) := by
  unfold execSkp at h
  by_cases hs : (s.reg x).toNat < 16
  · rw [keyOperand_of_lt hs] at h
    exact Or.inl ⟨hs, by simpa using h.symm⟩
  · rw [keyOperand_of_ge (by omega)] at h
    exact Or.inr ⟨by omega, by simpa [takeFault] using h.symm⟩

/-- `ExA1` skips or not, or the key number is out of range (R151). -/
theorem execSknp_cases {x : RegNo} {s t : State} (h : execSknp x s = .next t) :
    (∃ hk : (s.reg x).toNat < 16, t = skipIf (!s.key[(s.reg x).toNat]'hk) s) ∨
    (15 < (s.reg x).toNat ∧ t = s.setFault .keyIndex) := by
  unfold execSknp at h
  by_cases hs : (s.reg x).toNat < 16
  · rw [keyOperand_of_lt hs] at h
    exact Or.inl ⟨hs, by simpa using h.symm⟩
  · rw [keyOperand_of_ge (by omega)] at h
    exact Or.inr ⟨by omega, by simpa [takeFault] using h.symm⟩

/-- `Fx0A` rewinds while no key is down, else takes a key (R152). -/
theorem execLdKey_cases {x : RegNo} {s t : State} (h : execLdKey x s = .next t) :
    (lowestKey s = none ∧ t = s.setPc (s.pc - 2)) ∨
    (∃ k : Fin 16, lowestKey s = some k ∧ t = s.setReg x (BitVec.ofNat 8 k.val)) := by
  unfold execLdKey at h
  cases hk : lowestKey s with
  | none => rw [hk] at h; exact Or.inl ⟨rfl, by simpa using h.symm⟩
  | some k => rw [hk] at h; exact Or.inr ⟨k, rfl, by simpa using h.symm⟩

/-- What a STEP does: nothing on a faulted machine, a fetch fault, a handler, or the event of an unknown opcode
(R60, R178). -/
theorem opStep_cases {r : Byte} {s t : State} (h : opStep r s = .next t) :
    (¬ s.Running ∧ t = noEvent s) ∨
    (s.Running ∧ 0xFFE < s.pc.toNat ∧ t = (noEvent s).setFault .fetchRange) ∨
    (s.Running ∧ s.pc.toNat ≤ 0xFFE ∧ ∃ w, fetchWord s = some w ∧
      ((∃ i, decodeWord w = some i ∧ exec i (latch r w s) = .next t) ∨
        (decodeWord w = none ∧ t = emitUnknown w s.pc (latch r w s)))) := by
  by_cases hr : s.Running
  · by_cases hp : s.pc.toNat ≤ 0xFFE
    · have hf := fetchWord_of_le hp
      refine Or.inr (Or.inr ⟨hr, hp, _, hf, ?_⟩)
      cases hd : decodeWord (wordOfBytes (s.mem.read s.pc.toNat) (s.mem.read (s.pc.toNat + 1))) with
      | none => rw [opStep_unknown hr hf hd] at h; exact Or.inr ⟨rfl, by simpa using h.symm⟩
      | some i => rw [opStep_known hr hf hd] at h; exact Or.inl ⟨i, rfl, h⟩
    · rw [opStep_fetchFault hr (fetchWord_of_gt (by omega))] at h
      exact Or.inr (Or.inl ⟨hr, by omega, by simpa using h.symm⟩)
  · rw [opStep_faulted hr] at h
    exact Or.inl ⟨hr, by simpa using h.symm⟩

/-- A property that STEP and every other operation of the host keep, and that does not look at the schedule, is kept
by every step (R5, R187). -/
theorem step_keeps {P : State → Prop} (hStep : ∀ r s t, P s → opStep r s = .next t → P t)
    (hReset : ∀ s, P s → P (opReset s)) (hLoad : ∀ bytes s, P s → P (opLoad bytes s)) (hTick : ∀ s, P s → P (opTick s))
    (hKeys : ∀ k s, P s → P (opSetKeys k s)) (hDirty : ∀ s, P s → P (opClearDirty s))
    (hSchedule : ∀ s l, P s → P { s with schedule := l }) {s t : State} (hs : P s) (h : step s = .next t) : P t := by
  cases hl : s.schedule with
  | nil => rw [step_unscheduled hl] at h; exact hStep _ _ _ hs h
  | cons op rest =>
    rw [step_scheduled hl] at h
    have hs' := hSchedule s rest hs
    cases op <;> simp only [perform, Host.Outcome.next.injEq] at h
    case step r => exact hStep _ _ _ hs' h
    case reset => exact h ▸ hReset _ hs'
    case load bytes => exact h ▸ hLoad _ _ hs'
    case tick => exact h ▸ hTick _ hs'
    case setKeys k => exact h ▸ hKeys _ _ hs'
    case clearDirty => exact h ▸ hDirty _ hs'

end Sys2Proof.Machine
end

