-- ==== Sys2Proof/Tests/Slice0.lean ====
section
/-! SUPPORT. Tests. Expected results come from spec/95_test_vectors (the row is named), from the encodings of
spec/30_encoding R63 to R66, or from the rule named; and the witnesses that meet the hypotheses of the
statements in Certificates/Slice0/Obligations.lean. -/

namespace Sys2Proof.Machine

/-! ### Small states -/

/-- The state a handler starts from: RESET, then the instruction at 0x200 fetched (95, conventions). -/
def entry : State := { State.reset with pc := 0x202 }

/-- The state an instruction answers. -/
def after (i : Instr) (s : State) : State :=
  match exec i s with
  | .next t => t
  | _ => s

/-- The state a STEP(0x5A) answers. -/
def afterStep (s : State) : State :=
  match opStep 0x5A s with
  | .next t => t
  | _ => s

/-- Registers given values. -/
def withRegs (l : List (RegNo × Byte)) (s : State) : State := l.foldl (fun s p => s.setReg p.1 p.2) s

/-- V1, V2 and VF after an instruction on V1 = a, V2 = b, VF = f (the columns of 95, section 2.3). -/
def aluRow (i : Instr) (a b f : Byte) : Byte × Byte × Byte :=
  let t := after i (withRegs [(1, a), (2, b), (0xF, f)] entry)
  (t.reg 1, t.reg 2, t.reg 0xF)

/-- The keys of a list down. -/
def keysDown (l : List (Fin 16)) : Vector Bool 16 := Vector.ofFn fun k => l.contains k

/-- A machine about to fetch a word from address a. -/
def placed (a : Word) (hi lo : Byte) : State :=
  { State.reset with pc := a, mem := (Memory.write [] a.toNat hi).write (a.toNat + 1) lo }

/-! ### WellFormed: a word each check refuses, and one it accepts (R65, R67; 95 rows S12, T7, T8) -/

theorem test_wellformed_class0 : wordWellFormed 0x0FFF = false ∧ wordWellFormed 0x00E1 = false ∧
    wordWellFormed 0x00E0 = true ∧ wordWellFormed 0x00EE = true := by decide

theorem test_wellformed_lowNibble : wordWellFormed 0x5121 = false ∧ wordWellFormed 0x9121 = false ∧
    wordWellFormed 0x5120 = true ∧ wordWellFormed 0x9120 = true := by decide

theorem test_wellformed_class8 : wordWellFormed 0x8128 = false ∧ wordWellFormed 0x812F = false ∧
    wordWellFormed 0x8127 = true ∧ wordWellFormed 0x812E = true := by decide

theorem test_wellformed_classE : wordWellFormed 0xE19F = false ∧ wordWellFormed 0xE1A0 = false ∧
    wordWellFormed 0xE19E = true ∧ wordWellFormed 0xE1A1 = true := by decide

theorem test_wellformed_classF : wordWellFormed 0xF100 = false ∧ wordWellFormed 0xF166 = false ∧
    wordWellFormed 0xF165 = true ∧ wordWellFormed 0xF10A = true := by decide

/-! ### Decoding: every constructor, by a word written out from its row of R66 and its format of R63 -/

theorem test_decode_class0_control : decodeWord 0b0000000011100000 = some .cls ∧
    decodeWord 0b0000000011101110 = some .ret ∧
    decodeWord 0b0001101010111100 = some (.jp 0xABC) ∧
    decodeWord 0b0010101010111100 = some (.call 0xABC) ∧
    decodeWord 0b1011101010111100 = some (.jpV0 0xABC) := by decide

theorem test_decode_skips : decodeWord 0b0011010111101001 = some (.seImm 0x5 0xE9) ∧
    decodeWord 0b0100010111101001 = some (.sneImm 0x5 0xE9) ∧
    decodeWord 0b0101010111100000 = some (.seReg 0x5 0xE) ∧
    decodeWord 0b1001010111100000 = some (.sneReg 0x5 0xE) := by decide

theorem test_decode_immediates : decodeWord 0b0110010111101001 = some (.ldImm 0x5 0xE9) ∧
    decodeWord 0b0111010111101001 = some (.addImm 0x5 0xE9) ∧
    decodeWord 0b1100010111101001 = some (.rnd 0x5 0xE9) ∧
    decodeWord 0b1010101010111100 = some (.ldI 0xABC) := by decide

theorem test_decode_class8_logic : decodeWord 0b1000010111100000 = some (.ldReg 0x5 0xE) ∧
    decodeWord 0b1000010111100001 = some (.orReg 0x5 0xE) ∧
    decodeWord 0b1000010111100010 = some (.andReg 0x5 0xE) ∧
    decodeWord 0b1000010111100011 = some (.xorReg 0x5 0xE) := by decide

theorem test_decode_class8_flags : decodeWord 0b1000010111100100 = some (.addReg 0x5 0xE) ∧
    decodeWord 0b1000010111100101 = some (.subReg 0x5 0xE) ∧
    decodeWord 0b1000010111100110 = some (.shrReg 0x5 0xE) ∧
    decodeWord 0b1000010111100111 = some (.subnReg 0x5 0xE) ∧
    decodeWord 0b1000010111101110 = some (.shlReg 0x5 0xE) := by decide

theorem test_decode_draw_keys : decodeWord 0b1101010111101001 = some (.drw 0x5 0xE 0x9) ∧
    decodeWord 0b1110010110011110 = some (.skp 0x5) ∧
    decodeWord 0b1110010110100001 = some (.sknp 0x5) ∧
    decodeWord 0b1111010100001010 = some (.ldKey 0x5) := by decide

theorem test_decode_timers : decodeWord 0b1111010100000111 = some (.ldDT 0x5) ∧
    decodeWord 0b1111010100010101 = some (.setDT 0x5) ∧
    decodeWord 0b1111010100011000 = some (.setST 0x5) := by decide

theorem test_decode_index_memory : decodeWord 0b1111010100011110 = some (.addI 0x5) ∧
    decodeWord 0b1111010100101001 = some (.ldFont 0x5) ∧
    decodeWord 0b1111010100110011 = some (.bcd 0x5) ∧
    decodeWord 0b1111010101010101 = some (.storeRegs 0x5) ∧
    decodeWord 0b1111010101100101 = some (.loadRegs 0x5) := by decide

/-- High byte first, and the bytes after the instruction left alone (R44, R62). -/
theorem test_decode_bytes : decode [0x6A, 0x3C, 0x12] = .instr (.ldImm 0xA 0x3C) [0x12] := by decide

/-- Rejected by name (R62, R67; 95 row S12). -/
theorem test_decode_rejects : decode [0x6A] = .rejected .truncated ∧ decode [] = .rejected .truncated ∧
    decode [0x0F, 0xFF] = .rejected (.unknownOpcode 0x0FFF) := by decide

theorem test_decode_table_word : decodeTableWord 16 0x6A3C = some (.ldImm 0xA 0x3C) ∧
    decodeTableWord 16 0x5121 = none := by decide

/-! ### The cycle -/

/-- 95 row T3: the last word of memory runs, and pc goes past the end. -/
theorem test_step_last_word : (afterStep (placed 0xFFE 0x60 0x07)).reg 0 = 0x07 ∧
    (afterStep (placed 0xFFE 0x60 0x07)).pc = 0x1000 ∧ (afterStep (placed 0xFFE 0x60 0x07)).fault = .none := by decide

/-- 95 row T5: with pc = 0xFFF the fetch faults. -/
theorem test_step_fetch_range : (afterStep { entry with pc := 0xFFF, opcode := 0x6007 }).fault.code = 2 ∧
    (afterStep { entry with pc := 0xFFF, opcode := 0x6007 }).pc = 0xFFF ∧
    (afterStep { entry with pc := 0xFFF, opcode := 0x6007 }).opcode = 0x6007 := by decide

/-- 95 row T6: an odd pc is legal, and the first byte is the high one. -/
theorem test_step_odd_pc : (afterStep (placed 0x201 0x61 0x22)).opcode = 0x6122 ∧
    (afterStep (placed 0x201 0x61 0x22)).reg 1 = 0x22 ∧ (afterStep (placed 0x201 0x61 0x22)).pc = 0x203 := by decide

/-- 95 row S12: an unknown opcode. -/
theorem test_step_unknown : (afterStep (placed 0x200 0x0F 0xFF)).pc = 0x202 ∧
    (afterStep (placed 0x200 0x0F 0xFF)).fault = .none ∧
    (afterStep (placed 0x200 0x0F 0xFF)).diag = some ⟨0x0FFF, 0x200⟩ := by decide

/-- 95 row T9: a faulted machine does nothing. -/
theorem test_step_faulted : afterStep { entry with fault := .stackOverflow } = { entry with fault := .stackOverflow } := by
  decide

/-- `withFetchWord` places a word that the next step runs: here on the reset state. -/
theorem test_withFetchWord_runs : step (State.reset.withFetchWord 16 0x6A3C) =
    exec (.ldImm 0xA 0x3C) (latch (Config.rnd 0) 0x6A3C (State.reset.withFetchWord 16 0x6A3C)) := rfl

/-- The scheduled operations reach the machine (R183, R188, R189). -/
theorem test_scheduled_tick : step { entry with DT := 2, ST := 1, schedule := [.tick] } =
    .next { entry with DT := 1, ST := 0 } := rfl

/-! ### Control flow -/

/-- 95 rows F5, F6. -/
theorem test_call : (after (.call 0x300) { entry with sp := 15, pc := 0x252 }).stack[15] = 0x252 ∧
    (after (.call 0x300) { entry with sp := 15, pc := 0x252 }).sp = 16 ∧
    (after (.call 0x300) { entry with sp := 16, pc := 0x252 }).fault.code = 4 ∧
    (after (.call 0x300) { entry with sp := 16, pc := 0x252 }).pc = 0x252 := by decide

/-- 95 rows F7, F8. -/
theorem test_ret :
    (after .ret { entry with sp := 1, stack := entry.stack.set 0 0x202, pc := 0xABE }).pc = 0x202 ∧
    (after .ret { entry with sp := 1, stack := entry.stack.set 0 0x202, pc := 0xABE }).stack[0] = 0x202 ∧
    (after .ret entry).fault.code = 5 ∧ (after .ret entry).pc = 0x202 := by decide

/-- 95 rows F1, F9, F10. -/
theorem test_jumps : (after (.jp 0xABC) entry).pc = 0xABC ∧
    (after (.jpV0 0xFFF) (withRegs [(0, 0xFF)] entry)).pc = 0x10FE ∧
    (after (.jpV0 0x300) (withRegs [(0, 0x04), (3, 0x99)] entry)).pc = 0x304 := by decide

/-- 95 rows F11, F12. -/
theorem test_skip_imm : (after (.seImm 3 0x2A) (withRegs [(3, 0x2A)] entry)).pc = 0x204 ∧
    (after (.seImm 3 0x2B) (withRegs [(3, 0x2A)] entry)).pc = 0x202 ∧
    (after (.sneImm 3 0x2A) (withRegs [(3, 0x2A)] entry)).pc = 0x202 ∧
    (after (.sneImm 3 0x2B) (withRegs [(3, 0x2A)] entry)).pc = 0x204 := by decide

/-- 95 rows F13, F14. -/
theorem test_skip_reg : (after (.seReg 1 2) (withRegs [(1, 7), (2, 7)] entry)).pc = 0x204 ∧
    (after (.sneReg 1 2) (withRegs [(1, 7), (2, 7)] entry)).pc = 0x202 ∧
    (after (.seReg 1 2) (withRegs [(1, 7), (2, 8)] entry)).pc = 0x202 ∧
    (after (.sneReg 1 2) (withRegs [(1, 7), (2, 8)] entry)).pc = 0x204 := by decide

/-! ### The register unit (95, section 2.3) -/

/-- 95 rows A2, A3, A4. -/
theorem test_imm : (after (.ldImm 0xF 0x09) entry).reg 0xF = 0x09 ∧
    (after (.addImm 0 0x02) (withRegs [(0, 0xFF), (0xF, 0x55)] entry)).reg 0 = 0x01 ∧
    (after (.addImm 0 0x02) (withRegs [(0, 0xFF), (0xF, 0x55)] entry)).reg 0xF = 0x55 := by decide

/-- 95 rows A5 to A8. -/
theorem test_logic : aluRow (.ldReg 1 2) 0 0x77 0x55 = (0x77, 0x77, 0x55) ∧
    aluRow (.orReg 1 2) 0xF0 0x0F 0x55 = (0xFF, 0x0F, 0x55) ∧
    aluRow (.andReg 1 2) 0xF3 0x3C 0x55 = (0x30, 0x3C, 0x55) ∧
    aluRow (.xorReg 1 2) 0xFF 0x0F 0x55 = (0xF0, 0x0F, 0x55) := by decide

theorem test_add : aluRow (.addReg 1 2) 0xFA 0x0A 0x55 = (0x04, 0x0A, 0x01) ∧
    aluRow (.addReg 1 2) 0x0A 0x0A 0x55 = (0x14, 0x0A, 0x00) ∧
    aluRow (.addReg 0xF 2) 0 0x0A 0xFA = (0, 0x0A, 0x0B) ∧
    aluRow (.addReg 1 0xF) 0xFF 0 0x01 = (0x00, 0, 0x01) ∧
    aluRow (.addReg 0xF 0xF) 0 0 0x81 = (0, 0, 0x02) := by decide

theorem test_sub : aluRow (.subReg 1 2) 0x0A 0x0A 0x55 = (0x00, 0x0A, 0x01) ∧
    aluRow (.subReg 1 2) 0x05 0x0A 0x55 = (0xFB, 0x0A, 0x00) ∧
    aluRow (.subReg 0xF 2) 0 0x83 0x03 = (0, 0x83, 0x7D) ∧
    aluRow (.subReg 1 0xF) 0xFF 0 0x01 = (0xFE, 0, 0x01) ∧
    aluRow (.subReg 0xF 0xF) 0 0 0x81 = (0, 0, 0x00) := by decide

theorem test_shr : aluRow (.shrReg 1 2) 0xFA 0x0A 0x55 = (0x05, 0x0A, 0x00) ∧
    aluRow (.shrReg 1 2) 0x00 0x81 0x55 = (0x40, 0x81, 0x01) ∧
    aluRow (.shrReg 0xF 2) 0 0x83 0x03 = (0, 0x83, 0x41) ∧
    aluRow (.shrReg 1 0xF) 0x10 0 0x81 = (0x00, 0, 0x01) := by decide

theorem test_subn : aluRow (.subnReg 1 2) 0xFA 0x0A 0x55 = (0x10, 0x0A, 0x00) ∧
    aluRow (.subnReg 1 2) 0x05 0x0A 0x55 = (0x05, 0x0A, 0x01) ∧
    aluRow (.subnReg 0xF 2) 0 0x83 0x03 = (0, 0x83, 0x82) ∧
    aluRow (.subnReg 1 0xF) 0x10 0 0x81 = (0xF1, 0, 0x01) := by decide

theorem test_shl : aluRow (.shlReg 1 2) 0x00 0x81 0x55 = (0x02, 0x81, 0x01) ∧
    aluRow (.shlReg 1 2) 0xFF 0x01 0x00 = (0x02, 0x01, 0x00) ∧
    aluRow (.shlReg 0xF 2) 0 0x83 0x03 = (0, 0x83, 0x06) ∧
    aluRow (.shlReg 0xF 0xF) 0 0 0x81 = (0, 0, 0x02) := by decide

/-- 95 rows A10, A12. -/
theorem test_rnd : (after (.rnd 3 0x0F) { entry with rnd := 0xA7 }).reg 3 = 0x07 ∧
    (after (.rnd 3 0xFF) { entry with rnd := 0x5A }).reg 3 = 0x5A := by decide

/-! ### The index register and memory (95, section 2.4) -/

/-- Rows M1, M3, M4, M6. -/
theorem test_index : (after (.ldI 0xFFF) entry).I = 0x0FFF ∧
    (after (.addI 2) (withRegs [(2, 0x01)] { entry with I := 0x0FFF })).I = 0x1000 ∧
    (after (.addI 2) (withRegs [(2, 0x02)] { entry with I := 0xFFFF })).I = 0x0001 ∧
    (after (.ldFont 4) (withRegs [(4, 0xFF)] entry)).I = 0x04FB := by decide

/-- Rows M9, M10. -/
theorem test_bcd : (after (.bcd 1) (withRegs [(1, 0x80)] { entry with I := 0xFFD })).mem.readList 0xFFD 3 = [1, 2, 8] ∧
    (after (.bcd 1) (withRegs [(1, 0x80)] { entry with I := 0xFFE })).fault.code = 3 ∧
    (after (.bcd 1) (withRegs [(1, 0x80)] { entry with I := 0xFFE })).mem = [] := by decide

/-- Rows M11, M13. -/
theorem test_store : (after (.storeRegs 1) (withRegs [(0, 0xC8), (1, 0x90), (2, 0x33)] { entry with I := 0x400 })).mem.readList 0x400 3 =
      [0xC8, 0x90, 0x00] ∧
    (after (.storeRegs 1) (withRegs [(0, 0xC8), (1, 0x90), (2, 0x33)] { entry with I := 0x400 })).I = 0x402 ∧
    (after (.storeRegs 0xF) { entry with I := 0xFF1 }).fault.code = 3 ∧
    (after (.storeRegs 0xF) { entry with I := 0xFF1 }).I = 0xFF1 := by decide

/-- Rows M15, M17. -/
theorem test_load : (after (.loadRegs 1) (withRegs [(2, 0x99)] { entry with I := 0x400, mem := [(0x400, 0x11), (0x401, 0x22), (0x402, 0x33)] })).V.toList.take 3 =
      [0x11, 0x22, 0x99] ∧
    (after (.loadRegs 1) { entry with I := 0xFFF }).fault.code = 3 ∧
    (after (.loadRegs 1) { entry with I := 0xFFF }).I = 0xFFF := by decide

/-- A write of the byte an unlisted address reads as leaves no entry (log entry 13). -/
theorem test_memory_canonical : Memory.write [(0, 0x12)] 0 0xF0 = [] ∧ Memory.write [] 0x300 0 = [] ∧
    Memory.write [(0x300, 1)] 0x2FF 7 = [(0x2FF, 7), (0x300, 1)] := by decide

/-! ### The display (95, section 2.5) -/

/-- Row G1. -/
theorem test_cls : (after .cls { entry with disp := entry.disp.set 5 0x20, dirty := false }).disp = entry.disp ∧
    (after .cls { entry with disp := entry.disp.set 5 0x20, dirty := false }).dirty = true := by decide

/-- Rows G5 (clip at the right) and G4 (origin reduced). -/
theorem test_draw_clip :
    (after (.drw 0 1 1) (withRegs [(0, 60)] { entry with I := 0x300, mem := [(0x300, 0xFF)] })).disp =
      entry.disp.set 0 0xF000000000000000 ∧
    (after (.drw 0 1 1) (withRegs [(0, 70), (1, 33)] { entry with I := 0x300, mem := [(0x300, 0x80)] })).disp =
      entry.disp.set 1 0x40 := by decide

/-- Rows G7 and G14: a collision, and a clipped pixel that does not collide. -/
theorem test_draw_collision :
    (after (.drw 0 1 1) { entry with I := 0x300, mem := [(0x300, 0xF0)], disp := entry.disp.set 0 0x4 }).disp =
      entry.disp.set 0 0xB ∧
    (after (.drw 0 1 1) { entry with I := 0x300, mem := [(0x300, 0xF0)], disp := entry.disp.set 0 0x4 }).reg 0xF = 1 ∧
    (after (.drw 0 1 1) (withRegs [(0, 62)] { entry with I := 0x300, mem := [(0x300, 0x03)], disp := entry.disp.set 0 0x8000000000000000 })).reg 0xF = 0 := by
  decide

/-! ### The keypad and the timers (95, section 2.6) -/

/-- Rows K1, K3. -/
theorem test_key_skips : (after (.skp 5) (withRegs [(5, 0xA)] { entry with key := keysDown [0xA] })).pc = 0x204 ∧
    (after (.sknp 5) (withRegs [(5, 0xA)] { entry with key := keysDown [0xA] })).pc = 0x202 ∧
    (after (.skp 5) (withRegs [(5, 0x10)] entry)).fault.code = 6 ∧
    (after (.sknp 5) (withRegs [(5, 0x10)] entry)).fault.code = 6 := by decide

/-- Rows K5, K6. -/
theorem test_key_wait : (after (.ldKey 2) { entry with pc := 0x20C }).pc = 0x20A ∧
    (after (.ldKey 2) { entry with pc := 0x20C, key := keysDown [7, 3] }).reg 2 = 3 ∧
    (after (.ldKey 2) { entry with pc := 0x20C, key := keysDown [7, 3] }).pc = 0x20C := by decide

/-- Rows K9 to K11. -/
theorem test_timer_moves : (after (.ldDT 3) { entry with DT := 0x2C }).reg 3 = 0x2C ∧
    (after (.setDT 0) (withRegs [(0, 0x3C)] entry)).DT = 0x3C ∧
    (after (.setST 1) (withRegs [(1, 0x05)] entry)).ST = 0x05 := by decide

/-- Rows K12, K14. -/
theorem test_tick : opTick { entry with DT := 2, ST := 0 } = { entry with DT := 1, ST := 0 } ∧
    opTick { entry with DT := 5, fault := .memRange } = { entry with DT := 5, fault := .memRange } := by decide

/-! ### Reset and load (95, section 2.7) -/

/-- Rows L1, L2: the font at its place (R41's first glyph), the program at 0x200. -/
theorem test_load_program : (opLoad [0x12, 0x00] { entry with fault := .memRange }).mem.readList 0x1FF 3 = [0, 0x12, 0] ∧
    (opLoad [0x12, 0x00] { entry with fault := .memRange }).mem.readList 0 5 = [0xF0, 0x90, 0x90, 0x90, 0xF0] ∧
    (opLoad [0x12, 0x00] { entry with fault := .memRange }).fault = .none := by decide

/-- Row L4. -/
theorem test_load_too_large : opLoad (List.replicate 3585 1) entry = { State.reset with fault := .loadTooLarge } := by
  rw [opLoad, if_neg (by rw [List.length_replicate]; decide)]
  rfl

/-- The observation ports (R190). -/
theorem test_observe : observe (afterStep (placed 0x200 0x0F 0xFF)) =
    ⟨State.reset.disp, true, .none, some ⟨0x0FFF, 0x200⟩⟩ := by decide

/-! ### Witnesses: the hypotheses of each statement met by concrete operands and states, clause by clause -/

/-- EncodeOfDecodeIsTheWord. -/
theorem witness_EncodeOfDecodeIsTheWord : decodeWord 0xFF65 = some (.loadRegs 0xF) := by decide

/-- StepRunsTheDecodedInstruction, at the last word of memory; both clauses. -/
theorem witness_StepRunsTheDecodedInstruction :
    (placed 0xFFE 0x60 0x07).Running ∧ (placed 0xFFE 0x60 0x07).pc.toNat ≤ 0xFFE ∧
    (0x6007 : Word) = wordOfBytes ((placed 0xFFE 0x60 0x07).mem.read 0xFFE) ((placed 0xFFE 0x60 0x07).mem.read 0xFFF) ∧
    decodeWord 0x6007 = some (.ldImm 0 7) ∧ (placed 0xFFE 0x60 0x07).schedule = [] ∧
    { placed 0xFFE 0x60 0x07 with schedule := [.step 3, .tick] }.schedule = .step 3 :: [.tick] := by decide

/-- UnknownOpcodeIsReportedAndSkipped, at the first and at the last word. -/
theorem witness_UnknownOpcodeIsReportedAndSkipped :
    State.reset.Running ∧ State.reset.pc.toNat ≤ 0xFFE ∧
    (0 : Word) = wordOfBytes (State.reset.mem.read 0x200) (State.reset.mem.read 0x201) ∧ wordWellFormed 0 = false ∧
    (placed 0xFFE 0x0F 0xFF).Running ∧ (placed 0xFFE 0x0F 0xFF).pc.toNat ≤ 0xFFE ∧
    (0x0FFF : Word) = wordOfBytes ((placed 0xFFE 0x0F 0xFF).mem.read 0xFFE) ((placed 0xFFE 0x0F 0xFF).mem.read 0xFFF) ∧
    wordWellFormed 0x0FFF = false := by decide

/-- FetchIsBigEndianAndRangeChecked, where its clauses meet. -/
theorem witness_FetchIsBigEndianAndRangeChecked : { entry with pc := 0xFFE }.pc.toNat ≤ 0xFFE ∧
    0xFFE < { entry with pc := 0xFFF }.pc.toNat ∧ { entry with pc := 0xFFF }.Running := by decide

/-- FaultedMachineOnlyListens. -/
theorem witness_FaultedMachineOnlyListens : { entry with fault := .keyIndex }.fault ≠ .none := by decide

/-- ScheduledOperationIsPerformed: the schedule of each clause. -/
theorem witness_ScheduledOperationIsPerformed (op : HostOp) (rest : List HostOp) :
    { entry with schedule := op :: rest }.schedule = op :: rest := rfl

/-- NextFetchSeesTheStore, at the last word of memory. -/
theorem witness_NextFetchSeesTheStore : { entry with pc := 0xFFE, I := 0xFFE }.MemoryCanonical ∧
    { entry with pc := 0xFFE, I := 0xFFE }.pc = { entry with pc := 0xFFE, I := 0xFFE }.I ∧
    { entry with pc := 0xFFE, I := 0xFFE }.I.toNat ≤ 0xFFE := by decide

/-- ReturnPopsOrUnderflows: sp = 1, 16, and 0. -/
theorem witness_ReturnPopsOrUnderflows : { entry with sp := 1 }.sp.val = (0 : Fin 16).val + 1 ∧
    { entry with sp := 16 }.sp.val = (15 : Fin 16).val + 1 ∧ entry.sp = 0 := by decide

/-- JumpSetsPcAndSelfJumpIsFixed: a machine that has executed `1200` at 0x200. -/
theorem witness_JumpSetsPcAndSelfJumpIsFixed : { placed 0x200 0x12 0x00 with opcode := 0x1200 }.Running ∧
    { placed 0x200 0x12 0x00 with opcode := 0x1200 }.pc.toNat = (0x200 : Addr12).toNat ∧
    { placed 0x200 0x12 0x00 with opcode := 0x1200 }.pc.toNat ≤ 0xFFE ∧
    wordOfBytes ((placed 0x200 0x12 0x00).mem.read 0x200) ((placed 0x200 0x12 0x00).mem.read 0x201) = encode (.jp 0x200) ∧
    { placed 0x200 0x12 0x00 with opcode := 0x1200 }.opcode = encode (.jp 0x200) ∧
    { placed 0x200 0x12 0x00 with opcode := 0x1200 }.diag = none := by decide

/-- CallPushesOrOverflows and CallThenReturnComesBack: sp = 0, 15, and 16. -/
theorem witness_CallPushesOrOverflows : entry.sp.val = (0 : Fin 16).val ∧
    { entry with sp := 15 }.sp.val = (15 : Fin 16).val ∧ { entry with sp := 16 }.sp = 16 := by decide

/-- RegisterSkips: x = y. -/
theorem witness_RegisterSkips : (4 : RegNo) = 4 := by decide

/-- The premises on x and y of AddWithCarry, SubtractWithBorrow, ShiftRightTakesVy, ReverseSubtractWithBorrow and
ShiftLeftTakesVy: `8124`, `8F24`, `81F4`, `8FF4`. -/
theorem witness_AddWithCarry : ((1 : RegNo) ≠ VF ∧ (2 : RegNo) ≠ VF) ∧ (VF = VF ∧ (2 : RegNo) ≠ VF) ∧
    ((1 : RegNo) ≠ VF ∧ VF = VF) ∧ (0xFA : Nat) = ((withRegs [(1, 0xFA)] entry).reg 1).toNat ∧
    (0x0A : Nat) = ((withRegs [(2, 0x0A)] entry).reg 2).toNat ∧ (0x55 : Nat) = ((withRegs [(0xF, 0x55)] entry).reg VF).toNat := by
  decide

/-- RandomByteOnlyReachesRnd. -/
theorem witness_RandomByteOnlyReachesRnd : ∀ x nn, Instr.addReg 1 2 ≠ .rnd x nn := by simp

/-- OnlyFlagInstructionsWriteVF. -/
theorem witness_OnlyFlagInstructionsWriteVF :
    exec (.addReg 1 2) (withRegs [(1, 0xFA), (2, 0x0A)] entry) = .next (after (.addReg 1 2) (withRegs [(1, 0xFA), (2, 0x0A)] entry)) ∧
    (after (.addReg 1 2) (withRegs [(1, 0xFA), (2, 0x0A)] entry)).reg VF ≠ (withRegs [(1, 0xFA), (2, 0x0A)] entry).reg VF :=
  ⟨rfl, by decide⟩

/-- BcdStoresThreeDigits, at the top of memory. -/
theorem witness_BcdStoresThreeDigits : { entry with I := 0xFFD, mem := [(0xFFE, 9)] }.MemoryCanonical ∧
    { entry with I := 0xFFD, mem := [(0xFFE, 9)] }.I.toNat + 2 ≤ 0xFFF := by decide

/-- StoreRegistersWritesTheRun, LoadRegistersReadsTheRun and LoadAfterStoreBringsBackTheRegisters, at the top of memory. -/
theorem witness_StoreRegistersWritesTheRun : { entry with I := 0xFF0, mem := [(0xFFF, 9)] }.MemoryCanonical ∧
    { entry with I := 0xFF0, mem := [(0xFFF, 9)] }.I.toNat + (0xF : RegNo).toNat ≤ 0xFFF := by decide

/-- OutOfRangeAccessFaultsFirst: the lowest I of each clause, for x = 0xF and n = 2. -/
theorem witness_OutOfRangeAccessFaultsFirst : 0xFFF < { entry with I := 0xFFE }.I.toNat + 2 ∧
    0xFFF < { entry with I := 0xFF1 }.I.toNat + (0xF : RegNo).toNat ∧
    ((2 : BitVec 4) ≠ 0 ∧ 0xFFF < { entry with I := 0xFFF }.I.toNat + (2 : BitVec 4).toNat - 1) := by decide

/-- DrawXorsTheSprite: n = 0 past the end of memory, and the longest sprite at the top of memory. -/
theorem witness_DrawXorsTheSprite : ((0 : BitVec 4) = 0 ∨ { entry with I := 0xFFFF }.I.toNat + (0 : BitVec 4).toNat - 1 ≤ 0xFFF) ∧
    ((15 : BitVec 4) = 0 ∨ { entry with I := 0xFF1 }.I.toNat + (15 : BitVec 4).toNat - 1 ≤ 0xFFF) := by decide

/-- DrawingTwiceRestoresTheDisplay: the two draws of 95 rows G2 and G3, at an origin neither register of which is VF. -/
theorem witness_DrawingTwiceRestoresTheDisplay :
    (after (.drw 0 1 1) entry).reg 0 = entry.reg 0 ∧ (after (.drw 0 1 1) entry).reg 1 = entry.reg 1 ∧
    entry.I.toNat + (1 : BitVec 4).toNat - 1 ≤ 0xFFF := by decide

/-- KeySkipsReadTheLatch: V5 = 15 and V5 = 16. -/
theorem witness_KeySkipsReadTheLatch : ((withRegs [(5, 15)] entry).reg 5).toNat = (15 : Fin 16).val ∧
    15 < ((withRegs [(5, 16)] entry).reg 5).toNat := by decide

/-- KeyWaitTakesTheLowestKeyOrRewinds: keys 7 and 3 down; none down; and a machine that has waited once. -/
theorem witness_KeyWaitTakesTheLowestKeyOrRewinds :
    ({ entry with key := keysDown [7, 3] }.key[(3 : Fin 16)] = true ∧
      ∀ j : Fin 16, j < 3 → { entry with key := keysDown [7, 3] }.key[j] = false) ∧
    (∀ k : Fin 16, entry.key[k] = false) ∧
    ({ placed 0x200 0xF2 0x0A with opcode := 0xF20A }.Running ∧
      (∀ k : Fin 16, { placed 0x200 0xF2 0x0A with opcode := 0xF20A }.key[k] = false) ∧
      { placed 0x200 0xF2 0x0A with opcode := 0xF20A }.pc.toNat ≤ 0xFFE ∧
      wordOfBytes ((placed 0x200 0xF2 0x0A).mem.read 0x200) ((placed 0x200 0xF2 0x0A).mem.read 0x201) = encode (.ldKey 2) ∧
      { placed 0x200 0xF2 0x0A with opcode := 0xF20A }.opcode = encode (.ldKey 2) ∧
      { placed 0x200 0xF2 0x0A with opcode := 0xF20A }.diag = none) := by decide

/-- TickCountsEachTimerDown and TimerReachesZeroAfterItsCount: a running machine and a faulted one. -/
theorem witness_TickCountsEachTimerDown : { entry with DT := 255 }.Running ∧
    ¬ { entry with DT := 5, fault := .memRange }.Running := by decide

/-- ResetWritesEveryItem: a state with a register set, and what RESET makes of it. -/
theorem witness_ResetWritesEveryItem : withRegs [(1, 9)] entry ≠ State.reset ∧
    State.reset = opReset (withRegs [(1, 9)] entry) := by decide

/-- LoadPlacesTheProgram: the largest program, its last byte, and the addresses around it; and the empty program. -/
theorem witness_LoadPlacesTheProgram : (List.replicate 3584 (1 : Byte)).length ≤ 3584 ∧
    3583 < (List.replicate 3584 (1 : Byte)).length ∧ 0x1FF < 0x200 ∧
    0x200 + (List.replicate 3584 (1 : Byte)).length ≤ 0x1000 ∧ ([] : List Byte).length ≤ 3584 := by
  rw [List.length_replicate]
  decide

/-- LoadTooLargeIsRefused, the shortest such program. -/
theorem witness_LoadTooLargeIsRefused : 3584 < (List.replicate 3585 (1 : Byte)).length := by
  rw [List.length_replicate]
  decide

/-- StepKeepsMemoryCanonical, StepKeepsControlBounded, StepKeepsFaultQuiet: a state away from reset that steps. -/
theorem witness_StepKeepsInvariant :
    { placed 0xFFE 0xF1 0x55 with I := 0x300, schedule := [.step 0], stack := entry.stack.set 3 0x1000 }.Inv ∧
    { placed 0x200 0xF1 0x55 with pc := 0x10FE, fault := .memRange, schedule := [.step 0] }.Inv ∧
    ∃ t, step { placed 0xFFE 0xF1 0x55 with I := 0x300, schedule := [.step 0], stack := entry.stack.set 3 0x1000 } = .next t :=
  ⟨by decide, by decide, _, rfl⟩

/-- InstructionFaultsExactlyWhenListed and FaultEntryIsPrecise: an instruction for each cause, on a running machine that
is not running after it. -/
theorem witness_FaultEntryIsPrecise : entry.Running ∧
    (after (.drw 0 1 2) { entry with I := 0xFFF }).fault = .memRange ∧ (after (.bcd 1) { entry with I := 0xFFE }).fault = .memRange ∧
    (after (.storeRegs 0xF) { entry with I := 0xFF1 }).fault = .memRange ∧ (after (.loadRegs 0xF) { entry with I := 0xFF1 }).fault = .memRange ∧
    (after (.call 0x300) { entry with sp := 16 }).fault = .stackOverflow ∧ (after .ret entry).fault = .stackUnderflow ∧
    (after (.skp 5) (withRegs [(5, 16)] entry)).fault = .keyIndex ∧ (after (.sknp 5) (withRegs [(5, 16)] entry)).fault = .keyIndex ∧
    ¬ (after .ret entry).Running := by decide

/-- FaultEntryIsPrecise and InstructionFaultsExactlyWhenListed: the equation they assume. -/
theorem witness_FaultEntryIsPrecise_next : exec .ret entry = .next (after .ret entry) := rfl

/-- FaultIsStickyUntilResetOrLoad: a faulted machine whose fault a scheduled RESET, and a scheduled LOAD, change. -/
theorem witness_FaultIsStickyUntilResetOrLoad : { entry with fault := .memRange, schedule := [.reset] }.fault ≠ .none ∧
    step { entry with fault := .memRange, schedule := [.reset] } = .next State.reset ∧
    State.reset.fault ≠ { entry with fault := .memRange, schedule := [.reset] }.fault ∧
    step { entry with fault := .memRange, schedule := [.load []] } = .next State.reset := ⟨by decide, rfl, by decide, rfl⟩

/-- WhoWritesWhat: for each clause an instruction that changes the register. -/
theorem witness_WhoWritesWhat : (after (.bcd 1) (withRegs [(1, 9)] entry)).mem ≠ entry.mem ∧
    (after (.drw 0 1 1) { entry with I := 0 }).disp ≠ entry.disp ∧ (after (.call 0x300) entry).stack ≠ entry.stack ∧
    (after (.call 0x300) entry).sp ≠ entry.sp ∧ (after (.setDT 1) (withRegs [(1, 9)] entry)).DT ≠ entry.DT ∧
    (after (.setST 1) (withRegs [(1, 9)] entry)).ST ≠ entry.ST ∧ (after (.ldI 5) entry).I ≠ entry.I ∧
    (after (.jp 0x300) entry).pc ≠ entry.pc := by decide

/-- WhoWritesWhat and ProgramCannotWriteTheHostsState: the equation they assume. -/
theorem witness_WhoWritesWhat_next : exec (.rnd 1 2) entry = .next (after (.rnd 1 2) entry) ∧
    exec (.call 0x300) entry = .next (after (.call 0x300) entry) := ⟨rfl, rfl⟩

/-- ProgramCannotWriteTheHostsState: `dirty` set, a fault recorded, and an instruction that advances `draws`. -/
theorem witness_ProgramCannotWriteTheHostsState : entry.dirty = true ∧ { entry with fault := .keyIndex }.fault ≠ .none ∧
    (after (.rnd 1 2) entry).draws ≠ entry.draws := by decide

/-- UnreadStateStaysUnobservable: two different states a program cannot tell apart. -/
theorem witness_UnreadStateStaysUnobservable : entry ≠ { entry with ST := 9, dirty := false, opcode := 0x1200 } ∧
    entry.SameToProgram { entry with ST := 9, dirty := false, opcode := 0x1200 } := by decide

end Sys2Proof.Machine
end

section
/-! SUPPORT. Proofs about the state as a whole (10_state): the bounds of pc and the return addresses, what a program
can observe, and who writes VF. -/

namespace Sys2Proof.Machine

/-! ### Where a handler can send pc, and what it can do to the stack (R14, R15, R80 to R87, R150 to R152) -/

/-- The values of pc a handler can leave when it starts from `s`. -/
inductive PcMove (s : State) : Word → Prop
  /-- Every instruction that does not name pc, and every one that faults. -/
  | stay : PcMove s s.pc
  /-- A skip that is taken (R84). -/
  | skip : PcMove s (s.pc + 2)
  /-- The key wait (R152). -/
  | rewind : PcMove s (s.pc - 2)
  /-- A jump or a call (R81, R82). -/
  | jump (nnn : Addr12) : PcMove s (zext16 nnn)
  /-- A jump with offset, which is not reduced modulo 0x1000 (R83, D9). -/
  | offset (nnn : Addr12) (b : Byte) : PcMove s (zext16 nnn + zext16 b)
  /-- A return to an entry of the stack (R80). -/
  | back (k : Fin 16) : PcMove s s.stack[k]

/-- The stacks a handler can leave when it starts from `s`. -/
inductive StackMove (s : State) : Vector Word 16 → Prop
  /-- Every instruction but a call. -/
  | stay : StackMove s s.stack
  /-- A call pushes the advanced pc (R82). -/
  | push (k : Nat) (hk : k < 16) : StackMove s (s.stack.set k s.pc hk)

theorem skipIf_pcMove (c : Bool) (s : State) : PcMove s (skipIf c s).pc := by
  cases c
  · exact .stay
  · exact .skip

/-- Whatever the instruction: pc is moved in one of the ways of `PcMove`, the stack in one of those of `StackMove`. -/
theorem exec_control {i : Instr} {s t : State} (h : exec i s = .next t) : PcMove s t.pc ∧ StackMove s t.stack := by
  cases i with
  | ret =>
    obtain ⟨hp, rfl⟩ | ⟨-, rfl⟩ := execRet_cases h
    · exact ⟨.back ⟨s.sp.val - 1, by omega⟩, .stay⟩
    · exact ⟨.stay, .stay⟩
  | call nnn =>
    obtain ⟨hp, rfl⟩ | ⟨-, rfl⟩ := execCall_cases h
    · exact ⟨.jump nnn, .push _ hp⟩
    · exact ⟨.stay, .stay⟩
  | jp nnn => obtain rfl := Host.Outcome.next.inj h; exact ⟨.jump nnn, .stay⟩
  | jpV0 nnn => obtain rfl := Host.Outcome.next.inj h; exact ⟨.offset nnn _, .stay⟩
  | seImm | sneImm | seReg | sneReg =>
    obtain rfl := Host.Outcome.next.inj h
    exact ⟨skipIf_pcMove _ s, skipIf_stack s _ ▸ .stay⟩
  | skp x =>
    obtain ⟨_, rfl⟩ | ⟨-, rfl⟩ := execSkp_cases h
    · exact ⟨skipIf_pcMove _ s, skipIf_stack s _ ▸ .stay⟩
    · exact ⟨.stay, .stay⟩
  | sknp x =>
    obtain ⟨_, rfl⟩ | ⟨-, rfl⟩ := execSknp_cases h
    · exact ⟨skipIf_pcMove _ s, skipIf_stack s _ ▸ .stay⟩
    · exact ⟨.stay, .stay⟩
  | ldKey x =>
    obtain ⟨-, rfl⟩ | ⟨_, -, rfl⟩ := execLdKey_cases h
    · exact ⟨.rewind, .stay⟩
    · exact ⟨.stay, .stay⟩
  | bcd x => obtain ⟨-, rfl⟩ | ⟨-, rfl⟩ := execBcd_cases h <;> exact ⟨.stay, .stay⟩
  | storeRegs x => obtain ⟨-, rfl⟩ | ⟨-, rfl⟩ := execStoreRegs_cases h <;> exact ⟨.stay, .stay⟩
  | loadRegs x => obtain ⟨-, rfl⟩ | ⟨-, rfl⟩ := execLoadRegs_cases h <;> exact ⟨.stay, .stay⟩
  | drw x y n => obtain ⟨-, rfl⟩ | ⟨-, -, rfl⟩ := execDrw_cases h <;> exact ⟨.stay, .stay⟩
  | _ => obtain rfl := Host.Outcome.next.inj h; exact ⟨.stay, .stay⟩

/-! ### The bounds of R14 and R80 -/

/-- The bounds are of pc and the stack alone. -/
theorem controlBounded_congr {s t : State} (hs : s.ControlBounded) (hpc : t.pc = s.pc) (hst : t.stack = s.stack) :
    t.ControlBounded := by
  simpa only [State.ControlBounded, hpc, hst] using hs

/-- From an advanced pc in 2 to 0x1000, the largest move is `Bnnn` to 0xFFF + 0xFF (R14, D9). -/
theorem PcMove.le {s : State} {w : Word} (h : PcMove s w) (hlo : 2 ≤ s.pc.toNat) (hhi : s.pc.toNat ≤ 0x1000)
    (hst : ∀ k : Fin 16, s.stack[k].toNat ≤ 0x1000) : w.toNat ≤ 0x10FE := by
  cases h with
  | stay => omega
  | skip => bv_omega
  | rewind => bv_omega
  | jump nnn => have := nnn.isLt; bv_omega
  | offset nnn b => have := nnn.isLt; have := b.isLt; bv_omega
  | back k => have := hst k; omega

/-- The pushed return address is the advanced pc, so a stack within 0x1000 stays so. -/
theorem StackMove.le {s : State} {v : Vector Word 16} (h : StackMove s v) (hhi : s.pc.toNat ≤ 0x1000)
    (hst : ∀ k : Fin 16, s.stack[k].toNat ≤ 0x1000) (k : Fin 16) : v[k].toNat ≤ 0x1000 := by
  cases h with
  | stay => exact hst k
  | push j hj =>
    simp only [Fin.getElem_fin, Vector.getElem_set]
    split
    · exact hhi
    · exact hst k

/-- The STEP fetches at pc up to 0xFFE only, so its handler starts from an advanced pc of at most 0x1000. -/
theorem opStep_controlBounded {r : Byte} {s t : State} (hs : s.ControlBounded) (h : opStep r s = .next t) :
    t.ControlBounded := by
  have ⟨_, hst⟩ := hs
  obtain ⟨-, rfl⟩ | ⟨-, -, rfl⟩ | ⟨-, hp, w, -, hx⟩ := opStep_cases h
  · exact controlBounded_congr hs rfl rfl
  · exact controlBounded_congr hs rfl rfl
  · have hadv : (latch r w s).pc.toNat = s.pc.toNat + 2 := by rw [latch_pc]; bv_omega
    obtain ⟨i, -, hx⟩ | ⟨-, rfl⟩ := hx
    · obtain ⟨hpc, hstack⟩ := exec_control hx
      exact ⟨hpc.le (by omega) (by omega) hst, hstack.le (by omega) hst⟩
    · exact ⟨by rw [emitUnknown_pc]; omega, hst⟩

theorem opReset_controlBounded (s : State) : (opReset s).ControlBounded :=
  controlBounded_congr (s := State.reset) (by decide) rfl rfl

theorem opLoad_controlBounded (bytes : List Byte) (s : State) : (opLoad bytes s).ControlBounded := by
  unfold opLoad
  split <;> exact controlBounded_congr (opReset_controlBounded s) rfl rfl

theorem opTick_controlBounded {s : State} (hs : s.ControlBounded) : (opTick s).ControlBounded := by
  unfold opTick
  split
  · exact controlBounded_congr hs rfl rfl
  · exact hs

/-! ### What a program can observe (R18, R21, R22, R176) -/

/-- `s` with the items no instruction reads as they are in `u`. -/
def State.withUnreadOf (s u : State) : State :=
  { s with ST := u.ST, dirty := u.dirty, opcode := u.opcode, diag := u.diag }

section
variable (s u : State)

@[simp] theorem State.withUnreadOf_I : (s.withUnreadOf u).I = s.I := rfl
@[simp] theorem State.withUnreadOf_pc : (s.withUnreadOf u).pc = s.pc := rfl
@[simp] theorem State.withUnreadOf_fault : (s.withUnreadOf u).fault = s.fault := rfl
@[simp] theorem State.withUnreadOf_reg (r : RegNo) : (s.withUnreadOf u).reg r = s.reg r := rfl
@[simp] theorem State.withUnreadOf_regRun (x : RegNo) : (s.withUnreadOf u).regRun x = s.regRun x := rfl
@[simp] theorem fetchWord_withUnreadOf : fetchWord (s.withUnreadOf u) = fetchWord s := rfl
@[simp] theorem memRead_withUnreadOf (a : Word) (n : Nat) : memRead a n (s.withUnreadOf u) = memRead a n s := rfl
@[simp] theorem keyOperand_withUnreadOf (x : RegNo) : keyOperand x (s.withUnreadOf u) = keyOperand x s := rfl
@[simp] theorem lowestKey_withUnreadOf : lowestKey (s.withUnreadOf u) = lowestKey s := rfl

@[simp] theorem memWrite_withUnreadOf (a : Word) (v : List Byte) :
    memWrite a v (s.withUnreadOf u) = (memWrite a v s).map (·.withUnreadOf u) := by
  unfold memWrite
  split <;> rfl

@[simp] theorem State.push_withUnreadOf (w : Word) :
    (s.withUnreadOf u).push w = (s.push w).map (·.withUnreadOf u) := by
  by_cases h : s.sp.val < 16
  · rw [push_of_lt h, push_of_lt (s := s.withUnreadOf u) h]; rfl
  · have hfull : s.sp.val = 16 := by omega
    rw [push_of_full hfull, push_of_full (s := s.withUnreadOf u) hfull]; rfl

@[simp] theorem State.pop_withUnreadOf :
    (s.withUnreadOf u).pop = s.pop.map fun p => (p.1, p.2.withUnreadOf u) := by
  by_cases h : 0 < s.sp.val
  · rw [pop_of_pos h, pop_of_pos (s := s.withUnreadOf u) h]; rfl
  · have hempty : s.sp.val = 0 := by omega
    rw [pop_of_empty hempty, pop_of_empty (s := s.withUnreadOf u) hempty]; rfl

/-- Two states a program cannot tell apart are one state with two sets of unread items. -/
theorem State.SameToProgram.eq_withUnreadOf {s t : State} (h : s.SameToProgram t) : t = s.withUnreadOf t := by
  change t.programView.withUnreadOf t = s.programView.withUnreadOf t
  rw [h]

/-- Both outcomes are next states, and a program cannot tell these apart. -/
def SeenAlike (a b : Host.Outcome State Fault Refusal) : Prop :=
  ∃ s t, a = .next s ∧ b = .next t ∧ s.SameToProgram t

theorem seenAlike_next {s t : State} (h : s.SameToProgram t) : SeenAlike (.next s) (.next t) := ⟨s, t, rfl, rfl, h⟩

theorem skipIf_seenAlike (c : Bool) : SeenAlike (.next (skipIf c s)) (.next (skipIf c (s.withUnreadOf u))) := by
  cases c <;> exact seenAlike_next rfl

/-- Every handler answers, and what it answers depends on the unread items only in the unread items. -/
theorem exec_seenAlike (i : Instr) : SeenAlike (exec i s) (exec i (s.withUnreadOf u)) := by
  cases i with
  | seImm | sneImm | seReg | sneReg => exact skipIf_seenAlike s u _
  | ret =>
    simp only [exec, execRet, State.pop_withUnreadOf]
    cases s.pop <;> exact seenAlike_next rfl
  | call nnn =>
    simp only [exec, execCall, State.push_withUnreadOf, State.withUnreadOf_pc]
    cases s.push s.pc <;> exact seenAlike_next rfl
  | drw x y n =>
    simp only [exec, execDrw, memRead_withUnreadOf, State.withUnreadOf_I]
    cases memRead s.I n.toNat s <;> exact seenAlike_next rfl
  | bcd x =>
    simp only [exec, execBcd, memWrite_withUnreadOf, State.withUnreadOf_I, State.withUnreadOf_reg]
    cases memWrite s.I (bcdDigits (s.reg x)) s <;> exact seenAlike_next rfl
  | storeRegs x =>
    simp only [exec, execStoreRegs, memWrite_withUnreadOf, State.withUnreadOf_I, State.withUnreadOf_regRun]
    cases memWrite s.I (s.regRun x) s <;> exact seenAlike_next rfl
  | loadRegs x =>
    simp only [exec, execLoadRegs, memRead_withUnreadOf, State.withUnreadOf_I]
    cases memRead s.I (x.toNat + 1) s <;> exact seenAlike_next rfl
  | skp x =>
    simp only [exec, execSkp, keyOperand_withUnreadOf]
    cases keyOperand x s with
    | none => exact seenAlike_next rfl
    | some k => exact skipIf_seenAlike s u k
  | sknp x =>
    simp only [exec, execSknp, keyOperand_withUnreadOf]
    cases keyOperand x s with
    | none => exact seenAlike_next rfl
    | some k => exact skipIf_seenAlike s u (!k)
  | ldKey x =>
    simp only [exec, execLdKey, lowestKey_withUnreadOf]
    cases lowestKey s <;> exact seenAlike_next rfl
  | _ => exact seenAlike_next rfl

/-- The STEP itself reads none of the unread items: not in the faulted test, nor in the fetch, nor in the decode. -/
theorem opStep_seenAlike (r : Byte) : SeenAlike (opStep r s) (opStep r (s.withUnreadOf u)) := by
  by_cases hr : s.Running
  · have hr' : (s.withUnreadOf u).Running := hr
    cases hf : fetchWord s with
    | none =>
      rw [opStep_fetchFault hr hf, opStep_fetchFault hr' hf]
      exact seenAlike_next rfl
    | some w =>
      cases hd : decodeWord w with
      | none =>
        rw [opStep_unknown hr hf hd, opStep_unknown hr' hf hd]
        exact seenAlike_next rfl
      | some i =>
        rw [opStep_known hr hf hd, opStep_known hr' hf hd]
        exact exec_seenAlike (latch r w s) (latch r w u) i
  · rw [opStep_faulted hr, opStep_faulted (s := s.withUnreadOf u) hr]
    exact seenAlike_next rfl

theorem opTick_sameToProgram : (opTick s).SameToProgram (opTick (s.withUnreadOf u)) := by
  unfold opTick
  rw [State.withUnreadOf_fault]
  split <;> rfl

theorem perform_seenAlike (op : HostOp) : SeenAlike (perform op s) (perform op (s.withUnreadOf u)) := by
  cases op with
  | step r => exact opStep_seenAlike s u r
  | tick => exact seenAlike_next (opTick_sameToProgram s u)
  | reset | load | setKeys | clearDirty => exact seenAlike_next rfl

theorem step_seenAlike : SeenAlike (step s) (step (s.withUnreadOf u)) := by
  cases hl : s.schedule with
  | nil =>
    rw [step_unscheduled hl, step_unscheduled (s := s.withUnreadOf u) hl]
    exact opStep_seenAlike s u _
  | cons op rest =>
    rw [step_scheduled hl, step_scheduled (s := s.withUnreadOf u) hl]
    exact perform_seenAlike { s with schedule := rest } u op

end

/-! ### Who writes VF (R11) -/

/-- The instructions that name a register to write, or VF as the place of a flag (R11, R102 to R113, R126, R142, R152,
R153). -/
def writesRegs : Instr → Bool
  | .ldImm .. | .addImm .. | .ldReg .. | .orReg .. | .andReg .. | .xorReg .. | .addReg .. | .subReg .. | .shrReg ..
  | .subnReg .. | .shlReg .. | .rnd .. | .drw .. | .ldDT .. | .ldKey .. | .loadRegs .. => true
  | _ => false

/-- Every other instruction leaves all registers. -/
theorem exec_V_of_not_writesRegs {i : Instr} (hi : writesRegs i = false) {s t : State} (h : exec i s = .next t) :
    t.V = s.V := by
  cases i with
  | ret => obtain ⟨_, rfl⟩ | ⟨-, rfl⟩ := execRet_cases h <;> rfl
  | call nnn => obtain ⟨_, rfl⟩ | ⟨-, rfl⟩ := execCall_cases h <;> rfl
  | bcd x => obtain ⟨-, rfl⟩ | ⟨-, rfl⟩ := execBcd_cases h <;> rfl
  | storeRegs x => obtain ⟨-, rfl⟩ | ⟨-, rfl⟩ := execStoreRegs_cases h <;> rfl
  | skp x =>
    obtain ⟨_, rfl⟩ | ⟨-, rfl⟩ := execSkp_cases h
    · exact skipIf_V s _
    · rfl
  | sknp x =>
    obtain ⟨_, rfl⟩ | ⟨-, rfl⟩ := execSknp_cases h
    · exact skipIf_V s _
    · rfl
  | seImm | sneImm | seReg | sneReg => obtain rfl := Host.Outcome.next.inj h; exact skipIf_V s _
  | cls | jp | jpV0 | ldI | setDT | setST | addI | ldFont => obtain rfl := Host.Outcome.next.inj h; rfl
  | _ => cases hi

/-- A flag is 0 or 1. -/
theorem flagByte_zero_or_one (c : Bool) : (flagByte c).toNat = 0 ∨ (flagByte c).toNat = 1 := by
  cases c
  · exact .inl rfl
  · exact .inr rfl

/-- A register write reaches VF only when VF is its destination. -/
theorem eq_VF_of_setReg {s : State} {x : RegNo} {b : Byte} (h : (s.setReg x b).reg VF ≠ s.reg VF) : x = VF := by
  by_contra hx
  exact h (by rw [State.reg_setReg, if_neg (Ne.symm hx)])

/-- A flag instruction leaves VF its flag, unless VF is its destination (R101, D14). -/
theorem flagThenResult_VF (f g : Byte → Byte → Byte) {x : RegNo} (y : RegNo) (s : State) (hx : x ≠ VF) :
    (flagThenResult f g x y s).reg VF = f (s.reg x) (s.reg y) := by
  rw [reg_flagThenResult, if_neg (Ne.symm hx), if_pos rfl]

/-- The five flag instructions (R108 to R112). -/
def FlagInstr (i : Instr) (x y : RegNo) : Prop :=
  i = .addReg x y ∨ i = .subReg x y ∨ i = .shrReg x y ∨ i = .subnReg x y ∨ i = .shlReg x y

/-- A flag instruction writes a flag and then a result (R101). -/
theorem exec_flagInstr {i : Instr} {x y : RegNo} (hi : FlagInstr i x y) (s : State) :
    ∃ f g, (∀ a b, ∃ c, f a b = flagByte c) ∧ exec i s = .next (flagThenResult f g x y s) := by
  obtain rfl | rfl | rfl | rfl | rfl := hi <;> exact ⟨_, _, fun _ _ => ⟨_, rfl⟩, rfl⟩

/-- A flag instruction has VF as its destination or leaves 0 or 1 there. -/
theorem flagInstr_VF {i : Instr} {x y : RegNo} (hi : FlagInstr i x y) {s t : State} (h : exec i s = .next t) :
    x = VF ∨ x ≠ VF ∧ ((t.reg VF).toNat = 0 ∨ (t.reg VF).toNat = 1) := by
  obtain ⟨f, g, hf, hx⟩ := exec_flagInstr hi s
  obtain rfl := Host.Outcome.next.inj (hx.symm.trans h)
  refine (eq_or_ne x VF).imp_right fun hne => ⟨hne, ?_⟩
  obtain ⟨c, hc⟩ := hf (s.reg x) (s.reg y)
  rw [flagThenResult_VF f g y s hne, hc]
  exact flagByte_zero_or_one c

/-- A draw leaves 0 or 1 in VF (R142). -/
theorem drawSprite_VF (b : List Byte) (x0 y0 : Nat) (s : State) :
    ((drawSprite b x0 y0 s).reg VF).toNat = 0 ∨ ((drawSprite b x0 y0 s).reg VF).toNat = 1 := by
  rw [reg_drawSprite, if_pos rfl]
  exact flagByte_zero_or_one _

/-- A loaded run reaches VF only when it ends there (R126). -/
theorem eq_VF_of_setRegRun {s : State} {x : RegNo} {m : Memory} {a : Nat}
    (h : (s.setRegRun (m.readList a (x.toNat + 1))).reg VF ≠ s.reg VF) : x = VF := by
  by_contra hx
  have hlt : x.toNat < 15 := by
    have : x.toNat ≠ 15 := fun e => hx (BitVec.eq_of_toNat_eq e)
    have := x.isLt
    omega
  refine h ?_
  rw [reg_setRegRun, List.getD_eq_default _ _ (by simpa [Memory.readList, VF] using hlt)]

/-! ### The obligations -/

/-- Settles O52: a handler starts from an advanced pc of 2 to 0x1000, from which no move of pc passes 0x10FE and no
pushed return address passes 0x1000; no other operation but RESET and LOAD writes either. -/
theorem stepKeepsControlBounded : Obligations.StepKeepsControlBounded := fun _ _ hs h =>
  step_keeps (fun _ _ _ => opStep_controlBounded) (fun s _ => opReset_controlBounded s)
    (fun bytes s _ => opLoad_controlBounded bytes s) (fun _ => opTick_controlBounded)
    (fun _ _ h => h) (fun _ h => h) (fun _ _ h => h) hs h

/-- Settles O59: the two states are one state with two sets of unread items, which no operation reads. -/
theorem unreadStateStaysUnobservable : Obligations.UnreadStateStaysUnobservable := fun s t h => by
  rw [h.eq_withUnreadOf]
  exact step_seenAlike s t

/-- Settles O30, by the instruction: it leaves the registers, writes one register, is a flag instruction or a draw, or
loads a run. -/
theorem onlyFlagInstructionsWriteVF : Obligations.OnlyFlagInstructionsWriteVF := by
  intro i s t h hne
  cases i with
  | addReg x y | subReg x y | shrReg x y | subnReg x y | shlReg x y =>
    obtain rfl | ⟨hx, hbit⟩ := flagInstr_VF (x := x) (y := y) (by simp [FlagInstr]) h
    · exact .inr (.inl ⟨y, by simp⟩)
    · exact .inl ⟨.inl ⟨x, y, hx, by simp⟩, hbit⟩
  | drw x y n =>
    obtain ⟨-, rfl⟩ | ⟨-, -, rfl⟩ := execDrw_cases h
    · exact .inl ⟨.inr ⟨x, y, n, rfl⟩, drawSprite_VF _ _ _ s⟩
    · exact absurd rfl hne
  | ldReg x y | orReg x y | andReg x y | xorReg x y =>
    obtain rfl := Host.Outcome.next.inj h
    obtain rfl := eq_VF_of_setReg hne
    exact .inr (.inl ⟨y, by simp⟩)
  | ldImm x nn | addImm x nn =>
    obtain rfl := Host.Outcome.next.inj h
    obtain rfl := eq_VF_of_setReg hne
    exact .inr (.inr (.inl ⟨nn, by simp⟩))
  | rnd x nn =>
    obtain rfl := Host.Outcome.next.inj h
    obtain rfl := eq_VF_of_setReg (b := s.rnd &&& nn) hne
    exact .inr (.inr (.inl ⟨nn, by simp⟩))
  | ldDT x =>
    obtain rfl := Host.Outcome.next.inj h
    obtain rfl := eq_VF_of_setReg hne
    simp
  | ldKey x =>
    obtain ⟨-, rfl⟩ | ⟨_, -, rfl⟩ := execLdKey_cases h
    · exact absurd rfl hne
    · obtain rfl := eq_VF_of_setReg hne
      simp
  | loadRegs x =>
    obtain ⟨-, rfl⟩ | ⟨-, rfl⟩ := execLoadRegs_cases h
    · obtain rfl := eq_VF_of_setRegRun hne
      simp
    · exact absurd rfl hne
  | _ => exact absurd (reg_congr (exec_V_of_not_writesRegs rfl h) VF) hne

end Sys2Proof.Machine
end

section
/-! SUPPORT. Proofs about how instructions and data stand in memory: the two bytes of an instruction word, the fetch,
the range check, and the canonical form (20_memory, 30_encoding). -/

namespace Sys2Proof

/-! ### The fields of an encoded word (R63, R64) -/

section
variable (op x y n : BitVec 4) (nn : Byte) (nnn : Addr12)

@[simp] theorem fieldNNN_fmtNNN : fieldNNN (fmtNNN op nnn) = nnn := by
  apply BitVec.eq_of_toNat_eq
  rw [toNat_fieldNNN, toNat_fmtNNN]
  omega

@[simp] theorem fieldX_fmtXNN : fieldX (fmtXNN op x nn) = x := by
  apply BitVec.eq_of_toNat_eq
  rw [toNat_fieldX, toNat_fmtXNN]
  omega

@[simp] theorem fieldNN_fmtXNN : fieldNN (fmtXNN op x nn) = nn := by
  apply BitVec.eq_of_toNat_eq
  rw [toNat_fieldNN, mod256_fmtXNN]

@[simp] theorem fieldX_fmtXYN : fieldX (fmtXYN op x y n) = x := by
  apply BitVec.eq_of_toNat_eq
  rw [toNat_fieldX, toNat_fmtXYN]
  omega

@[simp] theorem fieldY_fmtXYN : fieldY (fmtXYN op x y n) = y := by
  apply BitVec.eq_of_toNat_eq
  rw [toNat_fieldY, toNat_fmtXYN]
  omega

@[simp] theorem fieldN_fmtXYN : fieldN (fmtXYN op x y n) = n := by
  apply BitVec.eq_of_toNat_eq
  rw [toNat_fieldN, mod16_fmtXYN]

/-! ### An encoded word fits the row of its format (R65) -/

variable (b : Word → Instr)

theorem fits_fmtNNN : (Row.mk (fmtNNN op 0) 0xF000#16 b).fits (fmtNNN op nnn) = true := by
  refine (fits_iff _ _ _ b).2 ?_
  rw [toNat_and_F000, ← wordClass, wordClass_fmtNNN, toNat_fmtNNN]
  simp

theorem fits_fmtXNN : (Row.mk (fmtXNN op 0 0) 0xF000#16 b).fits (fmtXNN op x nn) = true := by
  refine (fits_iff _ _ _ b).2 ?_
  rw [toNat_and_F000, ← wordClass, wordClass_fmtXNN, toNat_fmtXNN]
  simp

theorem fits_fmtXYN : (Row.mk (fmtXYN op 0 0 0) 0xF000#16 b).fits (fmtXYN op x y n) = true := by
  refine (fits_iff _ _ _ b).2 ?_
  rw [toNat_and_F000, ← wordClass, wordClass_fmtXYN, toNat_fmtXYN]
  simp

theorem fits_fmtXNN_lowByte : (Row.mk (fmtXNN op 0 nn) 0xF0FF#16 b).fits (fmtXNN op x nn) = true := by
  refine (fits_iff _ _ _ b).2 ?_
  rw [toNat_and_F0FF, ← wordClass, wordClass_fmtXNN, mod256_fmtXNN, toNat_fmtXNN]
  simp

theorem fits_fmtXYN_nibble4 : (Row.mk (fmtXYN op 0 0 n) 0xF00F#16 b).fits (fmtXYN op x y n) = true := by
  refine (fits_iff _ _ _ b).2 ?_
  rw [toNat_and_F00F, ← wordClass, wordClass_fmtXYN, mod16_fmtXYN, toNat_fmtXYN]
  simp

end

/-! ### Each instruction has its row (R66) -/

/-- The table and the type `Instr` list the instructions in one order, that of R66. -/
theorem ctorIdx_lt_opcodeMap (i : Instr) : i.ctorIdx < opcodeMap.length := by
  cases i <;> exact Nat.le_of_ble_eq_true rfl

/-- The row of R66 an instruction is encoded by. -/
def rowOf (i : Instr) : Row := opcodeMap[i.ctorIdx]'(ctorIdx_lt_opcodeMap i)

theorem rowOf_mem (i : Instr) : rowOf i ∈ opcodeMap := List.getElem_mem _

/-- The word of an instruction fits its row. -/
theorem rowOf_fits_encode (i : Instr) : (rowOf i).fits (encode i) = true := by
  cases i with
  | cls | ret => decide
  | jp | call | ldI | jpV0 => exact fits_fmtNNN ..
  | seImm | sneImm | ldImm | addImm | rnd => exact fits_fmtXNN ..
  | drw => exact fits_fmtXYN ..
  | seReg | ldReg | orReg | andReg | xorReg | addReg | subReg | shrReg | subnReg | shlReg | sneReg =>
    exact fits_fmtXYN_nibble4 ..
  | _ => exact fits_fmtXNN_lowByte ..

/-- The row of an instruction takes every field back from where the format put it. -/
theorem rowOf_build_encode (i : Instr) : (rowOf i).build (encode i) = i := by
  cases i with
  | cls | ret => rfl
  | jp | call | ldI | jpV0 => exact congrArg _ (fieldNNN_fmtNNN ..)
  | seImm | sneImm | ldImm | addImm | rnd => exact congrArg₂ _ (fieldX_fmtXNN ..) (fieldNN_fmtXNN ..)
  | drw x y n =>
    change Instr.drw _ _ _ = _
    rw [encode, fieldX_fmtXYN, fieldY_fmtXYN, fieldN_fmtXYN]
  | seReg | ldReg | orReg | andReg | xorReg | addReg | subReg | shrReg | subnReg | shlReg | sneReg =>
    exact congrArg₂ _ (fieldX_fmtXYN ..) (fieldY_fmtXYN ..)
  | _ => exact congrArg _ (fieldX_fmtXNN ..)

theorem decodeWord_encode (i : Instr) : decodeWord (encode i) = some i := by
  rw [decodeWord_of_fits (rowOf_mem i) (rowOf_fits_encode i), rowOf_build_encode]

/-- Decoding a word's two bytes decodes the word and leaves the bytes that follow (R44, R62). -/
theorem decode_bytesOfWord {w : Word} {i : Instr} (h : decodeWord w = some i) (rest : List Byte) :
    decode (bytesOfWord w ++ rest) = .instr i rest := by
  simp only [bytesOfWord, List.cons_append, List.nil_append, decode, wordOfBytes_bytesOfWord, h]

/-- The number of a word: the byte at the lower address counts 256 times (R44). -/
theorem toNat_wordOfBytes (hi lo : Byte) : (wordOfBytes hi lo).toNat = 256 * hi.toNat + lo.toNat := by
  rw [wordOfBytes, BitVec.toNat_append, ← Nat.shiftLeft_add_eq_or_of_lt lo.isLt, Nat.shiftLeft_eq, Nat.mul_comm]

end Sys2Proof

namespace Sys2Proof.Machine

/-! ### Out-of-range data accesses (R47) -/

section
variable {s : State} {x : RegNo}

theorem execBcd_of_outside (h : Config.memSize < s.I.toNat + 3) : execBcd x s = takeFault .memRange s := by
  rw [execBcd, memWrite_of_outside ⟨List.ne_nil_of_length_pos (by simp), h⟩]

theorem execStoreRegs_of_outside (h : Config.memSize < s.I.toNat + (x.toNat + 1)) :
    execStoreRegs x s = takeFault .memRange s := by
  rw [execStoreRegs, memWrite_of_outside ⟨List.ne_nil_of_length_pos (by simp), by rwa [length_regRun]⟩]

theorem execLoadRegs_of_outside (h : Config.memSize < s.I.toNat + (x.toNat + 1)) :
    execLoadRegs x s = takeFault .memRange s := by
  rw [execLoadRegs, memRead_of_outside ⟨Nat.succ_ne_zero _, h⟩]

theorem execDrw_of_outside {y : RegNo} {n : BitVec 4} (hn : n.toNat ≠ 0) (h : Config.memSize < s.I.toNat + n.toNat) :
    execDrw x y n s = takeFault .memRange s := by
  rw [execDrw, memRead_of_outside ⟨hn, h⟩]

end

/-! ### Who writes memory, and that it stays canonical (R46, R47; log entry 13) -/

/-- A handler leaves memory as it is, or it is `Fx33` or `Fx55` and writes one run from I, in range. -/
theorem exec_mem {i : Instr} {s t : State} (h : exec i s = .next t) :
    t.mem = s.mem ∨ (∃ x, i = .bcd x ∨ i = .storeRegs x) ∧
      ∃ v : List Byte, s.I.toNat + v.length ≤ Config.memSize ∧ t.mem = s.mem.writeList s.I.toNat v := by
  cases i with
  | bcd x =>
    obtain ⟨hr, rfl⟩ | ⟨-, rfl⟩ := execBcd_cases h
    · exact .inr ⟨⟨x, .inl rfl⟩, bcdDigits (s.reg x), by rwa [length_bcdDigits], rfl⟩
    · exact .inl rfl
  | storeRegs x =>
    obtain ⟨hr, rfl⟩ | ⟨-, rfl⟩ := execStoreRegs_cases h
    · exact .inr ⟨⟨x, .inr rfl⟩, s.regRun x, by rwa [length_regRun], rfl⟩
    · exact .inl rfl
  | loadRegs x => obtain ⟨-, rfl⟩ | ⟨-, rfl⟩ := execLoadRegs_cases h <;> exact .inl (by simp)
  | drw x y n => obtain ⟨-, rfl⟩ | ⟨-, -, rfl⟩ := execDrw_cases h <;> exact .inl (by simp)
  | ret => obtain ⟨_, rfl⟩ | ⟨-, rfl⟩ := execRet_cases h <;> exact .inl rfl
  | call nnn => obtain ⟨_, rfl⟩ | ⟨-, rfl⟩ := execCall_cases h <;> exact .inl rfl
  | ldKey x => obtain ⟨-, rfl⟩ | ⟨_, -, rfl⟩ := execLdKey_cases h <;> exact .inl rfl
  | skp x =>
    obtain ⟨_, rfl⟩ | ⟨-, rfl⟩ := execSkp_cases h
    · exact .inl (skipIf_mem s _)
    · exact .inl rfl
  | sknp x =>
    obtain ⟨_, rfl⟩ | ⟨-, rfl⟩ := execSknp_cases h
    · exact .inl (skipIf_mem s _)
    · exact .inl rfl
  | seImm | sneImm | seReg | sneReg => obtain rfl := Host.Outcome.next.inj h; exact .inl (skipIf_mem s _)
  | _ => obtain rfl := Host.Outcome.next.inj h; exact .inl rfl

theorem exec_memoryCanonical {i : Instr} {s t : State} (hs : s.MemoryCanonical) (h : exec i s = .next t) :
    t.MemoryCanonical := by
  obtain hm | ⟨-, v, hr, hm⟩ := exec_mem h
  · rwa [State.MemoryCanonical, hm]
  · rw [State.MemoryCanonical, hm]
    exact Memory.wf_writeList hs v hr

theorem opStep_memoryCanonical {r : Byte} {s t : State} (hs : s.MemoryCanonical) (h : opStep r s = .next t) :
    t.MemoryCanonical := by
  obtain ⟨-, rfl⟩ | ⟨-, -, rfl⟩ | ⟨-, -, w, -, ⟨i, -, hx⟩ | ⟨-, rfl⟩⟩ := opStep_cases h
  · exact hs
  · exact hs
  · exact exec_memoryCanonical (s := latch r w s) hs hx
  · exact hs

/-- The largest program ends at the last address (R201, R202). -/
theorem opLoad_memoryCanonical (bytes : List Byte) (s : State) : (opLoad bytes s).MemoryCanonical := by
  unfold opLoad
  split
  case isTrue h => exact Memory.wf_writeList Memory.wf_nil bytes (Nat.add_le_add_left h Config.programBase)
  case isFalse => exact Memory.wf_nil

theorem opTick_memoryCanonical {s : State} (hs : s.MemoryCanonical) : (opTick s).MemoryCanonical := by
  unfold opTick
  split <;> exact hs

/-! ### The obligations -/

/-- Settles O2: the word of an instruction fits that instruction's row of R66, and at most one row fits a word; the row
takes every field back from where the format put it. -/
theorem decodeOfEncodeIsTheInstruction : Obligations.DecodeOfEncodeIsTheInstruction := fun i rest =>
  decode_bytesOfWord (decodeWord_encode i) rest

/-- Settles O51: the only writes are runs that the range check keeps inside memory, and those of LOAD, which the size
check keeps inside; RESET empties the list. -/
theorem stepKeepsMemoryCanonical : Obligations.StepKeepsMemoryCanonical := fun _ _ hs h =>
  step_keeps (fun _ _ _ => opStep_memoryCanonical) (fun _ _ => reset_memoryCanonical)
    (fun bytes s _ => opLoad_memoryCanonical bytes s) (fun _ => opTick_memoryCanonical)
    (fun _ _ h => h) (fun _ h => h) (fun _ _ h => h) hs h

/-- Settles O8, one clause on each side of pc = 0xFFE. -/
theorem fetchIsBigEndianAndRangeChecked : Obligations.FetchIsBigEndianAndRangeChecked := fun _ =>
  ⟨fun h => ⟨_, fetchWord_of_le h, toNat_wordOfBytes _ _⟩,
    fun h => ⟨fetchWord_of_gt h, fun r hr => opStep_fetchFault hr (fetchWord_of_gt h) r⟩⟩

/-- Settles O36: each access fails the range check, and each handler makes that check before anything else. -/
theorem outOfRangeAccessFaultsFirst : Obligations.OutOfRangeAccessFaultsFirst := by
  intro x y n s
  refine ⟨fun h => execBcd_of_outside (Nat.succ_lt_succ h), fun h => execStoreRegs_of_outside (Nat.succ_lt_succ h),
    fun h => execLoadRegs_of_outside (Nat.succ_lt_succ h), fun hn h => ?_⟩
  have hpos : n.toNat ≠ 0 := fun e => hn (BitVec.eq_of_toNat_eq e)
  exact execDrw_of_outside hpos (by simp only [Config.memSize]; omega)

end Sys2Proof.Machine
end

section
/-! SUPPORT. Proofs about the opcode map as a whole: what each row's mask looks at, the words that are instructions, and
how a STEP uses the decoder (30_encoding). -/

namespace Sys2Proof

/-! ### The test of a row, on the numbers the class check names (R63, R65) -/

section
variable {p w : Word} {b : Word → Instr}

theorem fits_FFFF_iff : (Row.mk p 0xFFFF b).fits w = true ↔ w.toNat = p.toNat := by
  rw [BitVec.ofNat_eq_ofNat, fits_iff, and_FFFF]

theorem fits_F000_iff (hp : p.toNat % 4096 = 0) :
    (Row.mk p 0xF000 b).fits w = true ↔ wordClass w = wordClass p := by
  rw [BitVec.ofNat_eq_ofNat, fits_iff, toNat_and_F000, wordClass, wordClass]
  omega

theorem fits_F00F_iff (hp : p.toNat % 4096 < 16) :
    (Row.mk p 0xF00F b).fits w = true ↔ wordClass w = wordClass p ∧ w.toNat % 16 = p.toNat % 16 := by
  rw [BitVec.ofNat_eq_ofNat, fits_iff, toNat_and_F00F, wordClass, wordClass]
  omega

theorem fits_F0FF_iff (hp : p.toNat % 4096 < 256) :
    (Row.mk p 0xF0FF b).fits w = true ↔ wordClass w = wordClass p ∧ w.toNat % 256 = p.toNat % 256 := by
  rw [BitVec.ofNat_eq_ofNat, fits_iff, toNat_and_F0FF, wordClass, wordClass]
  omega

end

/-- Class by class, the rows with that class in their pattern are those that the check names: both sides say the same
of nibble 4 or of the low byte (R65, R67). -/
theorem any_fits_iff_wordWellFormed (w : Word) :
    opcodeMap.any (fun r => r.fits w) = true ↔ wordWellFormed w = true := by
  have hw := w.isLt
  simp (disch := decide) only [opcodeMap, rows1to9, rows10to19, rows20to34, List.any_append, List.any_cons,
    List.any_nil, Bool.or_false, Bool.or_eq_true, fits_FFFF_iff, fits_F000_iff, fits_F00F_iff, fits_F0FF_iff]
  unfold wordWellFormed wordClass
  split
  next hc => simp [hc, class0Ok]
  next hc => simp [hc, lowNibbleZero]; omega
  next hc => simp [hc, class8Ok]; omega
  next hc => simp [hc, lowNibbleZero]; omega
  next hc => simp [hc, classEOk]; omega
  next hc => simp [hc, classFOk]; omega
  next h0 h5 h8 h9 hE hF =>
    simp only [imp_false] at h0 h5 h8 h9 hE hF
    simp [h5, h8, h9, hE, hF]
    omega

theorem isSome_decodeWord (w : Word) : (decodeWord w).isSome = wordWellFormed w := by
  rw [Bool.eq_iff_iff, ← any_fits_iff_wordWellFormed, decodeWord, Option.isSome_map, List.find?_isSome,
    List.any_eq_true]

theorem decodeWord_of_not_wordWellFormed {w : Word} (h : wordWellFormed w = false) : decodeWord w = none := by
  rwa [← isSome_decodeWord, Option.isSome_eq_false_iff, Option.isNone_iff_eq_none] at h

/-! ### A word that fits a row is the encoding of what the row builds (R64) -/

section
variable {op n : BitVec 4} {nn : Byte} {w : Word} {b : Word → Instr}

theorem fmtNNN_of_fits (h : (Row.mk (fmtNNN op 0) 0xF000 b).fits w = true) : fmtNNN op (fieldNNN w) = w := by
  have hc := (fits_F000_iff (by rw [toNat_fmtNNN]; simp)).1 h
  rw [wordClass_fmtNNN, wordClass] at hc
  apply BitVec.eq_of_toNat_eq
  rw [toNat_fmtNNN, toNat_fieldNNN]
  omega

theorem fmtXNN_of_fits (h : (Row.mk (fmtXNN op 0 0) 0xF000 b).fits w = true) :
    fmtXNN op (fieldX w) (fieldNN w) = w := by
  have hc := (fits_F000_iff (by rw [toNat_fmtXNN]; simp)).1 h
  rw [wordClass_fmtXNN, wordClass] at hc
  apply BitVec.eq_of_toNat_eq
  rw [toNat_fmtXNN, toNat_fieldX, toNat_fieldNN]
  omega

theorem fmtXYN_of_fits (h : (Row.mk (fmtXYN op 0 0 0) 0xF000 b).fits w = true) :
    fmtXYN op (fieldX w) (fieldY w) (fieldN w) = w := by
  have hc := (fits_F000_iff (by rw [toNat_fmtXYN]; simp)).1 h
  rw [wordClass_fmtXYN, wordClass] at hc
  apply BitVec.eq_of_toNat_eq
  rw [toNat_fmtXYN, toNat_fieldX, toNat_fieldY, toNat_fieldN]
  omega

theorem fmtXYN_of_fits_nibble4 (h : (Row.mk (fmtXYN op 0 0 n) 0xF00F b).fits w = true) :
    fmtXYN op (fieldX w) (fieldY w) n = w := by
  obtain ⟨hc, hn⟩ := (fits_F00F_iff (by rw [toNat_fmtXYN]; simp; omega)).1 h
  rw [wordClass_fmtXYN, wordClass] at hc
  rw [mod16_fmtXYN] at hn
  apply BitVec.eq_of_toNat_eq
  rw [toNat_fmtXYN, toNat_fieldX, toNat_fieldY]
  omega

theorem fmtXNN_of_fits_lowByte (h : (Row.mk (fmtXNN op 0 nn) 0xF0FF b).fits w = true) :
    fmtXNN op (fieldX w) nn = w := by
  obtain ⟨hc, hn⟩ := (fits_F0FF_iff (by rw [toNat_fmtXNN]; simp; omega)).1 h
  rw [wordClass_fmtXNN, wordClass] at hc
  rw [mod256_fmtXNN] at hn
  apply BitVec.eq_of_toNat_eq
  rw [toNat_fmtXNN, toNat_fieldX]
  omega

end

/-- Every row of the table is the row of an instruction: of the one it builds from any word. -/
theorem exists_rowOf_eq {r : Row} (hr : r ∈ opcodeMap) : ∃ i, rowOf i = r := by
  have idx : ∀ k : Fin opcodeMap.length, (opcodeMap[k].build 0).ctorIdx = k := by decide
  obtain ⟨k, hk, rfl⟩ := List.getElem_of_mem hr
  exact ⟨opcodeMap[k].build 0, getElem_congr_idx (idx ⟨k, hk⟩)⟩

/-- A row's fixed bits and the fields its `build` takes are all the bits of a word it fits. -/
theorem encode_build_of_rowOf_fits {i : Instr} {w : Word} (h : (rowOf i).fits w = true) :
    encode ((rowOf i).build w) = w := by
  cases i with
  | cls | ret => exact (BitVec.eq_of_toNat_eq (fits_FFFF_iff.1 h)).symm
  | jp | call | ldI | jpV0 => exact fmtNNN_of_fits h
  | seImm | sneImm | ldImm | addImm | rnd => exact fmtXNN_of_fits h
  | drw => exact fmtXYN_of_fits h
  | seReg | ldReg | orReg | andReg | xorReg | addReg | subReg | shrReg | subnReg | shlReg | sneReg =>
    exact fmtXYN_of_fits_nibble4 h
  | _ => exact fmtXNN_of_fits_lowByte h

theorem encode_of_decodeWord {w : Word} {i : Instr} (h : decodeWord w = some i) : encode i = w := by
  obtain ⟨r, hr, hfit, rfl⟩ := fits_of_decodeWord h
  obtain ⟨j, rfl⟩ := exists_rowOf_eq hr
  exact encode_build_of_rowOf_fits hfit

/-! ### At most one row fits (R61) -/

/-- Of rows that conflict pairwise, at most one fits a word. -/
theorem length_filter_fits_le_one {rows : List Row}
    (h : rows.Pairwise (fun r q => r.mask &&& q.mask &&& (r.pattern ^^^ q.pattern) ≠ 0)) (w : Word) :
    (rows.filter (fun r => r.fits w)).length ≤ 1 := by
  induction rows with
  | nil => simp
  | cons q rows ih =>
    obtain ⟨hq, hrows⟩ := List.pairwise_cons.1 h
    cases hf : q.fits w with
    | false => simpa [hf] using ih hrows
    | true =>
      have hnone : rows.filter (fun r => r.fits w) = [] :=
        List.filter_eq_nil_iff.2 fun r hr => by simp [not_fits_of_conflict (hq r hr) hf]
      simp [hf, hnone]

end Sys2Proof

namespace Sys2Proof.Machine

/-! ### The obligations -/

/-- Settles O3: the word fits the row of its instruction, whose mask and fields together cover it. -/
theorem encodeOfDecodeIsTheWord : Obligations.EncodeOfDecodeIsTheWord := fun _ _ => encode_of_decodeWord

/-- Settles O4: any two rows of the table conflict in a bit that both masks look at. -/
theorem atMostOnePatternMatches : Obligations.AtMostOnePatternMatches :=
  length_filter_fits_le_one opcodeMap_conflicts

/-- Settles O5: the row that fits is the row that is found, and class by class the table and the check agree. -/
theorem maskDecodingIsTheClassCheck : Obligations.MaskDecodingIsTheClassCheck := by
  refine ⟨fun w i => ⟨fun h => ?_, ?_⟩, isSome_decodeWord⟩
  · obtain ⟨r, hr, hfit, hi⟩ := fits_of_decodeWord h
    exact ⟨r, hr, beq_iff_eq.1 hfit, hi⟩
  · rintro ⟨r, hr, hfit, rfl⟩
    exact decodeWord_of_fits hr (beq_iff_eq.2 hfit)

/-- Settles O1, by running the decoder on the eighteen words. -/
theorem decodesSpecExampleWords : Obligations.DecodesSpecExampleWords := by
  unfold Obligations.DecodesSpecExampleWords
  decide

/-- Settles O6: the fetch is in range and the word decodes, so the STEP is the handler after the latch; a scheduled STEP
is taken off the schedule first. -/
theorem stepRunsTheDecodedInstruction : Obligations.StepRunsTheDecodedInstruction := by
  rintro s i w hrun hpc rfl hdec
  refine ⟨fun hs => ?_, fun r rest hs => ?_⟩
  · exact (step_unscheduled hs).trans (opStep_known hrun (fetchWord_of_le hpc) hdec _)
  · exact (step_scheduled hs).trans
      (opStep_known (s := { s with schedule := rest }) hrun (fetchWord_of_le hpc) hdec r)

/-- Settles O7: a word that the class check refuses does not decode, so the STEP latches it and emits the event. -/
theorem unknownOpcodeIsReportedAndSkipped : Obligations.UnknownOpcodeIsReportedAndSkipped := by
  rintro s r w hrun hpc rfl hbad
  exact opStep_unknown hrun (fetchWord_of_le hpc) (decodeWord_of_not_wordWellFormed hbad) r

end Sys2Proof.Machine
end

section
/-! SUPPORT. Proofs about control flow: returns, jumps, calls and skips (40_control_flow). -/

namespace Sys2Proof.Machine

/-! ### What each handler answers (R80 to R87) -/

section
variable {s : State}

theorem execRet_of_sp {k : Fin 16} (h : s.sp = k.succ) :
    execRet s = .next { s with pc := s.stack[k], sp := k.castSucc } := by
  have hk : s.sp.val = k.val + 1 := congrArg Fin.val h
  have hpos : 0 < s.sp.val := by omega
  simp only [execRet, pop_of_pos hpos, hk, Nat.add_sub_cancel]
  rfl

theorem execRet_of_empty (h : s.sp = 0) : execRet s = takeFault .stackUnderflow s := by
  rw [execRet, pop_of_empty (congrArg Fin.val h)]

theorem execCall_of_sp {k : Fin 16} (h : s.sp = k.castSucc) (nnn : Addr12) :
    execCall nnn s = .next { s with pc := zext16 nnn, stack := s.stack.set k s.pc, sp := k.succ } := by
  have hk : s.sp.val = k.val := congrArg Fin.val h
  have hlt : s.sp.val < 16 := by omega
  simp only [execCall, push_of_lt hlt, hk]
  rfl

theorem execCall_of_full (h : s.sp = 16) (nnn : Addr12) : execCall nnn s = takeFault .stackOverflow s := by
  rw [execCall, push_of_full (congrArg Fin.val h)]

end

/-- The stack after a push to entry k, entry by entry (R82). -/
theorem getElem_set_stack (v : Vector Word 16) (k j : Fin 16) (w : Word) :
    (v.set k w)[j] = if j = k then w else v[j] := by
  simp only [Fin.getElem_fin, Vector.getElem_set, Fin.ext_iff, eq_comm]

/-- A skip writes pc and nothing else (R84). -/
theorem skipIf_eq (c : Bool) (s : State) : skipIf c s = { s with pc := if c then s.pc + 2 else s.pc } := by
  cases c <;> rfl

theorem toNat_zext16_addr (nnn : Addr12) : (zext16 nnn).toNat = nnn.toNat :=
  BitVec.toNat_setWidth_of_le (by decide)

/-- 0xFFF + 0xFF fits in 16 bits, so the sum of a jump with offset does not wrap (R83, D9). -/
theorem toNat_zext16_add (nnn : Addr12) (b : Byte) : (zext16 nnn + zext16 b).toNat = nnn.toNat + b.toNat := by
  have := nnn.isLt
  have := b.isLt
  bv_omega

/-! ### The obligations -/

/-- Settles O14: the word at pc decodes to the jump, which brings the advanced pc back; the latch writes the opcode and
the event that already stand there. -/
theorem jumpSetsPcAndSelfJumpIsFixed : Obligations.JumpSetsPcAndSelfJumpIsFixed := by
  refine ⟨fun nnn s => ⟨s.setPc (zext16 nnn), rfl, rfl, toNat_zext16_addr nnn⟩, ?_⟩
  intro nnn s r hrun hself hpc hword hop hdiag
  have hfetch : fetchWord s = some (encode (.jp nnn)) := hword ▸ fetchWord_of_le hpc
  have hback : zext16 nnn = s.pc := BitVec.eq_of_toNat_eq ((toNat_zext16_addr nnn).trans hself.symm)
  calc opStep r s
      = exec (.jp nnn) (latch r (encode (.jp nnn)) s) := opStep_known hrun hfetch (decodeWord_encode _) r
    _ = .next { s with opcode := encode (.jp nnn), pc := zext16 nnn, rnd := r, diag := none } := rfl
    _ = .next { s with rnd := r } := by rw [hback, ← hop, ← hdiag]

/-- Settles O15, one clause below sp = 16 and one at it. -/
theorem callPushesOrOverflows : Obligations.CallPushesOrOverflows := fun nnn s =>
  ⟨fun k hk => ⟨_, execCall_of_sp (Fin.ext hk) nnn, rfl, toNat_zext16_addr nnn, rfl,
    fun j => getElem_set_stack s.stack k j s.pc⟩,
   fun h => execCall_of_full h nnn⟩

/-- Settles O16: the call leaves sp = k + 1 and the address after it in entry k, so the return, wherever it stands,
takes that address back. -/
theorem callThenReturnComesBack : Obligations.CallThenReturnComesBack := by
  intro nnn s k hk
  have hsp : s.sp = k.castSucc := Fin.ext hk
  have hret (p : Word) : execRet { s with pc := p, stack := s.stack.set k s.pc, sp := k.succ } =
      .next { s with stack := s.stack.set k s.pc } := by
    rw [execRet_of_sp (k := k) rfl]
    simp only [getElem_set_stack, if_true, ← hsp]
  exact ⟨_, { s with stack := s.stack.set k s.pc }, execCall_of_sp hsp nnn, fun p => ⟨_, hret p, rfl⟩, rfl,
    fun j => getElem_set_stack s.stack k j s.pc⟩

/-- Settles O13, one clause above sp = 0 and one at it. -/
theorem returnPopsOrUnderflows : Obligations.ReturnPopsOrUnderflows := fun _ =>
  ⟨fun _ hk => ⟨_, execRet_of_sp (Fin.ext hk), rfl, rfl⟩, execRet_of_empty⟩

/-- Settles O17: a jump to a sum that does not wrap. -/
theorem jumpWithOffsetAddsV0 : Obligations.JumpWithOffsetAddsV0 := fun nnn s =>
  ⟨s.setPc (zext16 nnn + zext16 (s.reg 0)), rfl, rfl, toNat_zext16_add nnn (s.reg 0)⟩

/-- Settles O18: the condition of each skip, as a test of equality. -/
theorem immediateSkips : Obligations.ImmediateSkips := by
  intro x nn s
  refine ⟨⟨_, rfl, ?_⟩, ⟨_, rfl, ?_⟩⟩
  · simp only [skipIf_eq, beq_iff_eq]
  · simp only [skipIf_eq, bne_iff_ne, ite_not]

/-- Settles O19: the condition of each skip, as a test of equality, which x = y meets. -/
theorem registerSkips : Obligations.RegisterSkips := by
  intro x y s
  refine ⟨⟨_, rfl, ?_, ?_⟩, ⟨_, rfl, ?_, ?_⟩⟩
  · simp only [skipIf_eq, beq_iff_eq]
  · rintro rfl
    simp
  · simp only [skipIf_eq, bne_iff_ne, ite_not]
  · rintro rfl
    simp

end Sys2Proof.Machine
end

section
/-! SUPPORT. Proofs about the register unit: loads, logic, arithmetic with flag, shifts, random (41_register_alu). -/

namespace Sys2Proof.Machine

/-! ### The table of a flag-producing instruction (R101, R108 to R112) -/

/-- What an instruction that writes the flag `f` and then the result `g`, as numbers, leaves of `s` in `t`: the table of
R108 to R112, a case for x and y being VF or not. -/
structure FlagTable (f g : Nat → Nat → Nat) (x y : RegNo) (s t : State) : Prop where
  frame : t = { s with V := t.V }
  others : ∀ r, r ≠ x → r ≠ VF → t.reg r = s.reg r
  plain : x ≠ VF → y ≠ VF → (t.reg VF).toNat = f (s.reg x).toNat (s.reg y).toNat ∧
    (t.reg x).toNat = g (s.reg x).toNat (s.reg y).toNat
  destVF : x = VF → y ≠ VF →
    (t.reg VF).toNat = g (f (s.reg VF).toNat (s.reg y).toNat) (s.reg y).toNat
  sourceVF : x ≠ VF → y = VF → (t.reg VF).toNat = f (s.reg x).toNat (s.reg VF).toNat ∧
    (t.reg x).toNat = g (s.reg x).toNat (f (s.reg x).toNat (s.reg VF).toNat)
  bothVF : x = VF → y = VF → (t.reg VF).toNat =
    g (f (s.reg VF).toNat (s.reg VF).toNat) (f (s.reg VF).toNat (s.reg VF).toNat)

/-- The two writes of R101 follow the table of their flag and their result: an operand that is VF is read again after
the flag is written (D14). -/
theorem flagThenResult_table {flag result : Byte → Byte → Byte} {f g : Nat → Nat → Nat}
    (hf : ∀ a b, (flag a b).toNat = f a.toNat b.toNat) (hg : ∀ a b, (result a b).toNat = g a.toNat b.toNat)
    (x y : RegNo) (s : State) : FlagTable f g x y s (flagThenResult flag result x y s) where
  frame := rfl
  others r hx hVF := by rw [reg_flagThenResult, if_neg hx, if_neg hVF]
  plain hx hy := by
    refine ⟨by rw [flagThenResult_VF _ _ y s hx, hf], ?_⟩
    rw [reg_flagThenResult, if_pos rfl, if_neg hx, if_neg hy, hg]
  destVF hx hy := by
    subst hx
    rw [reg_flagThenResult, if_pos rfl, if_pos rfl, if_neg hy, hg, hf]
  sourceVF hx hy := by
    subst hy
    refine ⟨by rw [flagThenResult_VF _ _ VF s hx, hf], ?_⟩
    rw [reg_flagThenResult, if_pos rfl, if_neg hx, if_pos rfl, hg, hf]
  bothVF hx hy := by
    subst hx hy
    rw [reg_flagThenResult, if_pos rfl, if_pos rfl, hg, hf]

/-- The difference of R109 and R111: modulo 256, it is the difference or, on a borrow, the difference from 256 more. -/
theorem difference_eq_ite {a : Nat} (ha : a < 256) (b : Nat) :
    (256 + a - b) % 256 = if a ≥ b then a - b else 256 + a - b := by
  split_ifs <;> omega

/-! ### One register written (R102 to R107) -/

section
variable (s : State)

/-- The destination of a register write. -/
theorem State.reg_setReg_same (x : RegNo) (b : Byte) : (s.setReg x b).reg x = b := by
  rw [State.reg_setReg, if_pos rfl]

/-- Every other register. -/
theorem State.reg_setReg_of_ne (x : RegNo) (b : Byte) (r : RegNo) (h : r ≠ x) : (s.setReg x b).reg r = s.reg r := by
  rw [State.reg_setReg, if_neg h]

end

/-! ### The byte supplied with the STEP (R113, R191) -/

/-- `s` with another byte supplied (log entry 2). -/
def State.withRnd (s : State) (r : Byte) : State := { s with rnd := r }

/-- Both outcomes are next states, the second the first with the byte `r` at the port. -/
def AlikeButRnd (r : Byte) (a b : Host.Outcome State Fault Refusal) : Prop :=
  ∃ t, a = .next t ∧ b = .next (t.withRnd r)

section
variable (s : State) (r : Byte)

@[simp] theorem State.withRnd_I : (s.withRnd r).I = s.I := rfl
@[simp] theorem State.withRnd_pc : (s.withRnd r).pc = s.pc := rfl
@[simp] theorem State.withRnd_reg (q : RegNo) : (s.withRnd r).reg q = s.reg q := rfl
@[simp] theorem State.withRnd_regRun (x : RegNo) : (s.withRnd r).regRun x = s.regRun x := rfl
@[simp] theorem memRead_withRnd (a : Word) (n : Nat) : memRead a n (s.withRnd r) = memRead a n s := rfl
@[simp] theorem keyOperand_withRnd (x : RegNo) : keyOperand x (s.withRnd r) = keyOperand x s := rfl
@[simp] theorem lowestKey_withRnd : lowestKey (s.withRnd r) = lowestKey s := rfl

@[simp] theorem memWrite_withRnd (a : Word) (v : List Byte) :
    memWrite a v (s.withRnd r) = (memWrite a v s).map (·.withRnd r) := by
  unfold memWrite
  split <;> rfl

@[simp] theorem State.push_withRnd (w : Word) : (s.withRnd r).push w = (s.push w).map (·.withRnd r) := by
  by_cases h : s.sp.val < 16
  · rw [push_of_lt h, push_of_lt (s := s.withRnd r) h]; rfl
  · have hfull : s.sp.val = 16 := by omega
    rw [push_of_full hfull, push_of_full (s := s.withRnd r) hfull]; rfl

@[simp] theorem State.pop_withRnd : (s.withRnd r).pop = s.pop.map fun p => (p.1, p.2.withRnd r) := by
  by_cases h : 0 < s.sp.val
  · rw [pop_of_pos h, pop_of_pos (s := s.withRnd r) h]; rfl
  · have hempty : s.sp.val = 0 := by omega
    rw [pop_of_empty hempty, pop_of_empty (s := s.withRnd r) hempty]; rfl

theorem skipIf_alikeButRnd (c : Bool) : AlikeButRnd r (.next (skipIf c s)) (.next (skipIf c (s.withRnd r))) :=
  ⟨_, rfl, by cases c <;> rfl⟩

/-- No handler but that of `Cxnn` reads the port: each answers alike, and leaves the byte at the port. -/
theorem exec_alikeButRnd {i : Instr} (hi : ∀ x nn, i ≠ .rnd x nn) :
    AlikeButRnd r (exec i s) (exec i (s.withRnd r)) := by
  cases i with
  | rnd x nn => exact absurd rfl (hi x nn)
  | seImm | sneImm | seReg | sneReg => exact skipIf_alikeButRnd s r _
  | ret =>
    simp only [exec, execRet, State.pop_withRnd]
    cases s.pop <;> exact ⟨_, rfl, rfl⟩
  | call nnn =>
    simp only [exec, execCall, State.push_withRnd, State.withRnd_pc]
    cases s.push s.pc <;> exact ⟨_, rfl, rfl⟩
  | drw x y n =>
    simp only [exec, execDrw, memRead_withRnd, State.withRnd_I]
    cases memRead s.I n.toNat s <;> exact ⟨_, rfl, rfl⟩
  | bcd x =>
    simp only [exec, execBcd, memWrite_withRnd, State.withRnd_I, State.withRnd_reg]
    cases memWrite s.I (bcdDigits (s.reg x)) s <;> exact ⟨_, rfl, rfl⟩
  | storeRegs x =>
    simp only [exec, execStoreRegs, memWrite_withRnd, State.withRnd_I, State.withRnd_regRun]
    cases memWrite s.I (s.regRun x) s <;> exact ⟨_, rfl, rfl⟩
  | loadRegs x =>
    simp only [exec, execLoadRegs, memRead_withRnd, State.withRnd_I]
    cases memRead s.I (x.toNat + 1) s <;> exact ⟨_, rfl, rfl⟩
  | skp x =>
    simp only [exec, execSkp, keyOperand_withRnd]
    cases keyOperand x s with
    | none => exact ⟨_, rfl, rfl⟩
    | some k => exact skipIf_alikeButRnd s r k
  | sknp x =>
    simp only [exec, execSknp, keyOperand_withRnd]
    cases keyOperand x s with
    | none => exact ⟨_, rfl, rfl⟩
    | some k => exact skipIf_alikeButRnd s r (!k)
  | ldKey x =>
    simp only [exec, execLdKey, lowestKey_withRnd]
    cases lowestKey s <;> exact ⟨_, rfl, rfl⟩
  | _ => exact ⟨_, rfl, rfl⟩

end

/-! ### The obligations -/

/-- Settles O23: the table of the carry and the sum; with x = y = VF the sum is twice the carry. -/
theorem addWithCarry : Obligations.AddWithCarry := by
  rintro x y s a b F rfl rfl rfl
  have T : FlagTable (fun a b => if a + b > 255 then 1 else 0) (fun a b => (a + b) % 256) x y s _ :=
    flagThenResult_table toNat_carryFlag toNat_addByte x y s
  refine ⟨_, rfl, T.frame, T.others, T.plain, T.destVF, T.sourceVF, fun hx hy => ?_⟩
  rw [T.bothVF hx hy]
  split_ifs <;> omega

/-- Settles O24: the table of the inverted borrow and the difference; with x = y = VF the flag is taken from itself. -/
theorem subtractWithBorrow : Obligations.SubtractWithBorrow := by
  rintro x y s a b F rfl rfl rfl
  have T : FlagTable (fun a b => if a ≥ b then 1 else 0) (fun a b => (256 + a - b) % 256) x y s _ :=
    flagThenResult_table toNat_subFlag toNat_subByte x y s
  refine ⟨_, rfl, T.frame, T.others, fun hx hy => ?_, T.destVF, T.sourceVF, fun hx hy => ?_⟩
  · exact (T.plain hx hy).imp_right fun h => h.trans (difference_eq_ite (s.reg x).isLt _)
  · rw [T.bothVF hx hy, Nat.add_sub_cancel]

/-- Settles O25: the table of bit 0 and the half of V[y]; with y = VF the half is that of the flag, 0. -/
theorem shiftRightTakesVy : Obligations.ShiftRightTakesVy := by
  rintro x y s b F rfl rfl
  have T : FlagTable (fun _ b => b % 2) (fun _ b => b / 2) x y s _ :=
    flagThenResult_table toNat_shrFlag (fun _ => toNat_shrByte) x y s
  refine ⟨_, rfl, T.frame, T.others, T.plain, T.destVF, fun hx hy => ?_, fun hx hy => ?_⟩
  · exact (T.sourceVF hx hy).imp_right fun h => h.trans (by omega)
  · exact (T.bothVF hx hy).trans (by omega)

/-- Settles O26: the table of the inverted borrow and the difference the other way round; with x = y = VF the flag is
taken from itself. -/
theorem reverseSubtractWithBorrow : Obligations.ReverseSubtractWithBorrow := by
  rintro x y s a b F rfl rfl rfl
  have T : FlagTable (fun a b => if b ≥ a then 1 else 0) (fun a b => (256 + b - a) % 256) x y s _ :=
    flagThenResult_table toNat_subnFlag (fun a b => toNat_subByte b a) x y s
  refine ⟨_, rfl, T.frame, T.others, fun hx hy => ?_, T.destVF, T.sourceVF, fun hx hy => ?_⟩
  · exact (T.plain hx hy).imp_right fun h => h.trans (difference_eq_ite (s.reg y).isLt _)
  · rw [T.bothVF hx hy, Nat.add_sub_cancel]

/-- Settles O27: the table of bit 7 and the double of V[y]; with y = VF the double is that of the flag, which does not
wrap. -/
theorem shiftLeftTakesVy : Obligations.ShiftLeftTakesVy := by
  rintro x y s b F rfl rfl
  have T : FlagTable (fun _ b => b / 128) (fun _ b => 2 * b % 256) x y s _ :=
    flagThenResult_table toNat_shlFlag (fun _ => toNat_shlByte) x y s
  have := (s.reg VF).isLt
  refine ⟨_, rfl, T.frame, T.others, T.plain, T.destVF, fun hx hy => ?_, fun hx hy => ?_⟩
  · exact (T.sourceVF hx hy).imp_right fun h => h.trans (by omega)
  · exact (T.bothVF hx hy).trans (by omega)

/-- Settles O29: only the handler of `Cxnn` reads the port. -/
theorem randomByteOnlyReachesRnd : Obligations.RandomByteOnlyReachesRnd := fun _ s r hi => exec_alikeButRnd s r hi

/-- Settles O20: each is one register write. -/
theorem registerLoads : Obligations.RegisterLoads :=
  ⟨fun x nn s => ⟨_, rfl, rfl, fun r => s.reg_setReg x r nn⟩,
   fun x y s => ⟨_, rfl, rfl, fun r => s.reg_setReg x r (s.reg y)⟩⟩

/-- Settles O21: one register write, of the sum modulo 256. -/
theorem addImmediateWrapsWithoutFlag : Obligations.AddImmediateWrapsWithoutFlag := fun x nn s =>
  ⟨_, rfl, rfl, by rw [State.reg_setReg_same, toNat_addByte], s.reg_setReg_of_ne x _⟩

/-- Settles O22: each is one register write, of a byte made bit by bit. -/
theorem bitwiseLogicActsBitByBit : Obligations.BitwiseLogicActsBitByBit := fun x _ s =>
  ⟨⟨_, rfl, rfl, s.reg_setReg_of_ne x _, fun _ => by rw [State.reg_setReg_same, BitVec.getLsbD_or]⟩,
   ⟨_, rfl, rfl, s.reg_setReg_of_ne x _, fun _ => by rw [State.reg_setReg_same, BitVec.getLsbD_and]⟩,
   ⟨_, rfl, rfl, s.reg_setReg_of_ne x _, fun _ => by rw [State.reg_setReg_same, BitVec.getLsbD_xor]⟩⟩

/-- Settles O28: one register write, of a byte with no bit outside nn, beside the count of the draw. -/
theorem randomIsMaskedByNn : Obligations.RandomIsMaskedByNn := by
  intro x nn s
  refine ⟨_, rfl, rfl, fun r => s.reg_setReg x r (s.rnd &&& nn), ?_⟩
  calc (s.setReg x (s.rnd &&& nn)).reg x &&& ~~~nn
      = s.rnd &&& nn &&& ~~~nn := by rw [State.reg_setReg_same]
    _ = s.rnd &&& 0 := by rw [BitVec.and_assoc, BitVec.and_not_self]
    _ = 0 := BitVec.and_zero

end Sys2Proof.Machine
end

section
/-! SUPPORT. Proofs about the index register and memory: loads of I, decimal digits, register store and load
(42_index_memory). -/

namespace Sys2Proof.Machine

/-! ### What each memory handler answers in range (R123, R125, R126) -/

section
variable {s : State} {x : RegNo}

theorem execBcd_of_inRange (h : s.I.toNat + 3 ≤ Config.memSize) :
    execBcd x s = .next { s with mem := s.mem.writeList s.I.toNat (bcdDigits (s.reg x)) } := by
  rw [execBcd, memWrite_of_inRange h]

theorem execStoreRegs_of_inRange (h : s.I.toNat + (x.toNat + 1) ≤ Config.memSize) :
    execStoreRegs x s = .next { s with mem := s.mem.writeList s.I.toNat (s.regRun x), I := s.I + zext16 x + 1 } := by
  rw [execStoreRegs, memWrite_of_inRange (by rwa [length_regRun])]
  rfl

theorem execLoadRegs_of_inRange (h : s.I.toNat + (x.toNat + 1) ≤ Config.memSize) :
    execLoadRegs x s = .next ((s.setRegRun (s.mem.readList s.I.toNat (x.toNat + 1))).advanceI x) := by
  rw [execLoadRegs, memRead_of_inRange (.inr h)]

end

/-! ### The new index (R121, R122, R124) -/

/-- 5 * 255 fits in 16 bits (R122). -/
theorem toNat_fontAddress (b : Byte) : (5 * zext16 b).toNat = 5 * b.toNat := by
  have := b.isLt
  bv_omega

theorem toNat_addIndex (i : Word) (b : Byte) : (i + zext16 b).toNat = (i.toNat + b.toNat) % 65536 := by
  rw [BitVec.toNat_add, BitVec.toNat_setWidth_of_le (by decide)]

/-- After a run that ends inside memory the index does not wrap (R124). -/
theorem toNat_advancedIndex {i : Word} {x : RegNo} (h : i.toNat + (x.toNat + 1) ≤ Config.memSize) :
    (i + zext16 x + 1).toNat = i.toNat + x.toNat + 1 := by
  simp only [Config.memSize] at h
  bv_omega

/-! ### The digits and the register runs in memory (R123, R125, R126) -/

/-- Each digit, the hundreds of a byte too, fits in a byte (R123). -/
theorem toNat_bcdDigits (v : Byte) :
    (bcdDigits v)[0].toNat = v.toNat / 100 ∧ (bcdDigits v)[1].toNat = v.toNat / 10 % 10 ∧
      (bcdDigits v)[2].toNat = v.toNat % 10 := by
  have := v.isLt
  exact ⟨Nat.mod_eq_of_lt (by omega), Nat.mod_eq_of_lt (by omega), Nat.mod_eq_of_lt (by omega)⟩

/-- Where V[k] stands after the store of a run (R125). -/
theorem Memory.read_writeList_regRun {m : Memory} (hm : m.wf) {a : Nat} {x k : RegNo} (s : State)
    (ha : a + (x.toNat + 1) ≤ Config.memSize) (hk : k.toNat ≤ x.toNat) :
    (m.writeList a (s.regRun x)).read (a + k.toNat) = s.reg k := by
  have hk' : k.toNat < (s.regRun x).length := by rw [length_regRun]; omega
  rw [Memory.read_writeList_inside hm _ (by rwa [length_regRun]) hk', getElem_regRun, BitVec.ofNat_toNat,
    BitVec.setWidth_eq]

/-- What V[k] holds after the load of a run (R126). -/
theorem reg_setRegRun_readList (s : State) (m : Memory) (a : Nat) (x k : RegNo) :
    (s.setRegRun (m.readList a (x.toNat + 1))).reg k = if k.toNat ≤ x.toNat then m.read (a + k.toNat) else s.reg k := by
  rw [reg_setRegRun]
  split
  case isTrue h => rw [← List.getElem_eq_getD (h := by rw [Memory.length_readList]; omega), Memory.getElem_readList]
  case isFalse h => rw [List.getD_eq_default _ _ (by rw [Memory.length_readList]; omega)]

/-! ### The obligations -/

/-- Settles O33: one run of three digits is written, and byte k of it reads as digit k. -/
theorem bcdStoresThreeDigits : Obligations.BcdStoresThreeDigits := by
  intro x s hm hr
  have hr : s.I.toNat + 3 ≤ Config.memSize := Nat.succ_le_succ hr
  have digit (k : Nat) (hk : k < 3) : (s.mem.writeList s.I.toNat (bcdDigits (s.reg x))).read (s.I.toNat + k) =
      (bcdDigits (s.reg x))[k] := Memory.read_writeList_inside hm _ hr hk
  obtain ⟨hundreds, tens, ones⟩ := toNat_bcdDigits (s.reg x)
  refine ⟨_, execBcd_of_inRange hr, rfl, ?_, ?_, ?_, fun a ha => ?_⟩
  · rw [← hundreds, ← digit 0 (by decide), Nat.add_zero]
  · rw [← tens, ← digit 1 (by decide)]
  · rw [← ones, ← digit 2 (by decide)]
  · exact Memory.read_writeList_outside _ _ (by rw [length_bcdDigits]; omega)

/-- Settles O34: the run of the registers is written at I, and the advance of I does not wrap. -/
theorem storeRegistersWritesTheRun : Obligations.StoreRegistersWritesTheRun := by
  intro x s hm hr
  have hr : s.I.toNat + (x.toNat + 1) ≤ Config.memSize := Nat.succ_le_succ hr
  refine ⟨_, execStoreRegs_of_inRange hr, rfl, toNat_advancedIndex hr, fun k hk => ?_, fun a ha => ?_⟩
  · exact Memory.read_writeList_regRun hm s hr hk
  · exact Memory.read_writeList_outside _ _ (by rw [length_regRun]; omega)

/-- Settles O35: the registers take the run that is read at I, and the advance of I does not wrap. -/
theorem loadRegistersReadsTheRun : Obligations.LoadRegistersReadsTheRun := by
  intro x s hr
  have hr : s.I.toNat + (x.toNat + 1) ≤ Config.memSize := Nat.succ_le_succ hr
  exact ⟨_, execLoadRegs_of_inRange hr, rfl, toNat_advancedIndex hr, reg_setRegRun_readList s s.mem s.I.toNat x⟩

/-- Settles O37: the load reads the addresses the store wrote, and both leave I at the same place. -/
theorem loadAfterStoreBringsBackTheRegisters : Obligations.LoadAfterStoreBringsBackTheRegisters := by
  intro x s regs hm hr
  obtain ⟨t, hstore, -, htI, hstored, -⟩ := storeRegistersWritesTheRun x s hm hr
  obtain ⟨u, hload, hframe, huI, hloaded⟩ := loadRegistersReadsTheRun x { t with I := s.I, V := regs } hr
  have hI : u.I = t.I := BitVec.eq_of_toNat_eq (huI.trans htI.symm)
  refine ⟨t, u, hstore, hload, by rwa [hI] at hframe, fun k hk => ?_⟩
  rw [hloaded, if_pos hk]
  exact hstored k hk

/-- Settles O31: each is one write of I, of a number that fits in 16 bits. -/
theorem indexLoads : Obligations.IndexLoads :=
  ⟨fun nnn _ => ⟨_, rfl, rfl, toNat_zext16_addr nnn⟩, fun x s => ⟨_, rfl, rfl, toNat_fontAddress (s.reg x)⟩⟩

/-- Settles O32: one write of I, of the sum modulo 65536. -/
theorem addToIndexWraps : Obligations.AddToIndexWraps := fun x s => ⟨_, rfl, rfl, toNat_addIndex s.I (s.reg x)⟩

end Sys2Proof.Machine
end

section
/-! SUPPORT. Proofs about the display: the clear, the draw, and the draw of the same sprite again (43_display). -/

namespace Sys2Proof.Machine

/-! ### The clear (R141) -/

/-- A blank display has no pixel set, on the grid or off it. -/
theorem pixel_blank (px py : Nat) : Display.pixel (Vector.replicate 32 0) px py = false := by
  unfold Display.pixel
  split
  · rw [Vector.getElem_replicate, BitVec.ofNat_eq_ofNat, BitVec.getLsbD_zero]
  · rfl

/-! ### The sprite that is read, as the statements speak of it (R140, R142) -/

/-- The bit the bytes read from memory put over a pixel is the sprite bit of that memory. -/
theorem rowsBit_readList (m : Memory) (base n x0 y0 px py : Nat) :
    rowsBit (m.readList base n) x0 y0 px py = spriteBit m base n x0 y0 px py := by
  unfold rowsBit spriteBit
  rw [Memory.length_readList]
  by_cases h : x0 ≤ px ∧ px < x0 + 8 ∧ y0 ≤ py ∧ py < y0 + n
  · have hrow : py - y0 < (m.readList base n).length := by rw [Memory.length_readList]; omega
    rw [← List.getElem_eq_getD (h := hrow), Memory.getElem_readList]
  · rw [decide_eq_false h, Bool.false_and, Bool.false_and]

/-- The sprite depends on memory, the index and the origin alone. -/
theorem State.spriteAt_congr {s t : State} {x y : RegNo} (hmem : t.mem = s.mem) (hI : t.I = s.I)
    (hx : (t.reg x).toNat % 64 = (s.reg x).toNat % 64) (hy : (t.reg y).toNat % 32 = (s.reg y).toNat % 32)
    (n : BitVec 4) (px py : Nat) : t.spriteAt x y n px py = s.spriteAt x y n px py := by
  unfold State.spriteAt
  rw [hmem, hI, hx, hy]

/-! ### The draw (R142) -/

/-- The state `Dxyn` leaves when its sprite is in range. -/
def State.drawn (s : State) (x y : RegNo) (n : BitVec 4) : State :=
  drawSprite (s.mem.readList s.I.toNat n.toNat) ((s.reg x).toNat % 64) ((s.reg y).toNat % 32) s

section
variable {s : State} {x y : RegNo} {n : BitVec 4}

/-- No rows, or the last row inside memory (R47). -/
theorem execDrw_of_inRange (h : n = 0 ∨ s.I.toNat + n.toNat - 1 ≤ 0xFFF) : execDrw x y n s = .next (s.drawn x y n) := by
  have hrange : n.toNat = 0 ∨ s.I.toNat + n.toNat ≤ Config.memSize := by
    rcases h with rfl | h
    · exact .inl rfl
    · simp only [Config.memSize]; omega
  rw [execDrw, memRead_of_inRange hrange]
  rfl

theorem pixel_drawn {px py : Nat} (hx : px < 64) (hy : py < 32) :
    (s.drawn x y n).pixel px py = (s.pixel px py ^^ s.spriteAt x y n px py) := by
  rw [State.spriteAt, ← rowsBit_readList]
  exact pixel_drawRows _ _ _ (s.disp, false) px py hx hy

theorem reg_drawn_of_ne {r : RegNo} (hr : r ≠ VF) : (s.drawn x y n).reg r = s.reg r := by
  rw [State.drawn, reg_drawSprite, if_neg hr]

/-- VF takes the flag of the loops. -/
theorem reg_VF_drawn : (s.drawn x y n).reg VF = flagByte (drawRows (s.mem.readList s.I.toNat n.toNat)
    ((s.reg x).toNat % 64) ((s.reg y).toNat % 32) (s.disp, false)).2 := by
  rw [State.drawn, reg_drawSprite, if_pos rfl]

theorem toNat_flagByte_eq_one (c : Bool) : (flagByte c).toNat = 1 ↔ c = true := by cases c <;> decide

/-- The flag is set when a visible sprite bit lies on a set pixel, which is when that pixel is turned off. -/
theorem collision_drawn : ((s.drawn x y n).reg VF).toNat = 1 ↔
    ∃ px py, px < 64 ∧ py < 32 ∧ s.pixel px py = true ∧ (s.drawn x y n).pixel px py = false := by
  rw [reg_VF_drawn, toNat_flagByte_eq_one, flag_drawRows, or_iff_right Bool.false_ne_true]
  refine exists₂_congr fun px py => and_congr_right fun hx => and_congr_right fun hy => ?_
  rw [pixel_drawn hx hy, rowsBit_readList]
  change s.spriteAt x y n px py = true ∧ s.pixel px py = true ↔ _
  cases s.pixel px py <;> simp

end

/-! ### The obligations -/

/-- Settles O39: the loops XOR the sprite that is read and report a sprite bit over a set pixel. -/
theorem drawXorsTheSprite : Obligations.DrawXorsTheSprite := by
  intro x y n s hr
  refine ⟨s.drawn x y n, execDrw_of_inRange hr, rfl, fun r => reg_drawn_of_ne, fun px py => pixel_drawn, ?_, collision_drawn⟩
  rw [reg_VF_drawn, toNat_flagByte]
  split
  · exact .inr rfl
  · exact .inl rfl

/-- Settles O40: both draws XOR the same sprite, so the second undoes the first, and the pixels the second turns off are
those the first turned on. -/
theorem drawingTwiceRestoresTheDisplay : Obligations.DrawingTwiceRestoresTheDisplay := by
  intro x y n s hr
  obtain ⟨t, hfirst, hframe, -, hpixel, -, -⟩ := drawXorsTheSprite x y n s hr
  refine ⟨t, hfirst, fun hx hy => ?_⟩
  have hmem : t.mem = s.mem := (congrArg State.mem hframe :)
  have hI : t.I = s.I := (congrArg State.I hframe :)
  obtain ⟨u, hsecond, -, -, hpixel', -, hcollision⟩ := drawXorsTheSprite x y n t (by rwa [hI])
  have restored (px py : Nat) (hpx : px < 64) (hpy : py < 32) : u.pixel px py = s.pixel px py := by
    rw [hpixel' px py hpx hpy, hpixel px py hpx hpy, State.spriteAt_congr hmem hI hx hy, Bool.xor_assoc, Bool.xor_self,
      Bool.xor_false]
  refine ⟨u, hsecond, display_ext restored, hcollision.trans ?_⟩
  refine exists₂_congr fun px py => and_congr_right fun hpx => and_congr_right fun hpy => ?_
  rw [restored px py hpx hpy, and_comm]

/-- Settles O38: the display is replaced by a blank one. -/
theorem clearDisplayClearsEveryPixel : Obligations.ClearDisplayClearsEveryPixel := fun _ =>
  ⟨_, rfl, rfl, fun px py _ _ => pixel_blank px py⟩

end Sys2Proof.Machine
end

section
/-! SUPPORT. Proofs about the keypad and the timers: the key skips, the key wait, the timer moves (44_keypad_timers). -/

namespace Sys2Proof.Machine

/-! ### What each key handler answers (R150 to R152) -/

section
variable {s : State} {x : RegNo} {k : Fin 16}

theorem execSkp_of_key (h : (s.reg x).toNat = k.val) : execSkp x s = .next (skipIf s.key[k] s) := by
  have hlt : (s.reg x).toNat < 16 := h ▸ k.isLt
  simp only [execSkp, keyOperand_of_lt hlt, h, Fin.getElem_fin]

theorem execSknp_of_key (h : (s.reg x).toNat = k.val) : execSknp x s = .next (skipIf (!s.key[k]) s) := by
  have hlt : (s.reg x).toNat < 16 := h ▸ k.isLt
  simp only [execSknp, keyOperand_of_lt hlt, h, Fin.getElem_fin]

theorem execSkp_of_ge (h : 16 ≤ (s.reg x).toNat) : execSkp x s = takeFault .keyIndex s := by
  rw [execSkp, keyOperand_of_ge h]

theorem execSknp_of_ge (h : 16 ≤ (s.reg x).toNat) : execSknp x s = takeFault .keyIndex s := by
  rw [execSknp, keyOperand_of_ge h]

theorem execLdKey_of_first (hk : s.key[k] = true) (hlow : ∀ j : Fin 16, j < k → s.key[j] = false) :
    execLdKey x s = .next (s.setReg x (BitVec.ofNat 8 k.val)) := by
  rw [execLdKey, lowestKey_of_first hk hlow]

theorem execLdKey_of_noKey (h : ∀ k : Fin 16, s.key[k] = false) : execLdKey x s = .next { s with pc := s.pc - 2 } := by
  rw [execLdKey, (lowestKey_none s).2 h]
  rfl

end

/-- A key number fits in a byte (R152). -/
theorem toNat_keyNumber (k : Fin 16) : (BitVec.ofNat 8 k.val).toNat = k.val :=
  Nat.mod_eq_of_lt (by omega)

/-- A STEP that fetches the key wait while no key is down: pc is back where it was, and only what every fetch leaves
differs (R60, R152). -/
theorem opStep_keyWait {s : State} {x : RegNo} (hrun : s.Running) (hfetch : fetchWord s = some (encode (.ldKey x)))
    (hkeys : ∀ k : Fin 16, s.key[k] = false) (r : Byte) :
    opStep r s = .next { s with opcode := encode (.ldKey x), rnd := r, diag := none } :=
  calc opStep r s
      = execLdKey x (latch r (encode (.ldKey x)) s) := opStep_known hrun hfetch (decodeWord_encode _) r
    _ = .next { latch r (encode (.ldKey x)) s with pc := s.pc + 2 - 2 } := execLdKey_of_noKey hkeys
    _ = .next { s with opcode := encode (.ldKey x), rnd := r, diag := none } := by rw [BitVec.add_sub_cancel]; rfl

/-! ### The obligations -/

/-- Settles O42: the wait answers with the lowest key or rewinds; the rewind meets the advance of the fetch, and the
latch writes the opcode and the event that already stand there. -/
theorem keyWaitTakesTheLowestKeyOrRewinds : Obligations.KeyWaitTakesTheLowestKeyOrRewinds := by
  refine ⟨fun x s k hk hlow => ?_, fun x s hkeys => ⟨_, execLdKey_of_noKey hkeys, rfl⟩, ?_⟩
  · refine ⟨_, execLdKey_of_first hk hlow, rfl, ?_, s.reg_setReg_of_ne x _⟩
    rw [State.reg_setReg_same, toNat_keyNumber]
  · intro x s r hrun hkeys hpc hword hop hdiag
    have hfetch : fetchWord s = some (encode (.ldKey x)) := hword ▸ fetchWord_of_le hpc
    rw [opStep_keyWait hrun hfetch hkeys, ← hop, ← hdiag]

/-- Settles O41: a number up to 15 reads its key, on which the two skips turn opposite ways; a larger one has no key to
read. -/
theorem keySkipsReadTheLatch : Obligations.KeySkipsReadTheLatch := by
  refine fun x s => ⟨fun k hk => ⟨⟨_, execSkp_of_key hk, skipIf_eq _ s⟩, ⟨_, execSknp_of_key hk, ?_⟩⟩,
    fun h => ⟨execSkp_of_ge h, execSknp_of_ge h⟩⟩
  rw [skipIf_eq]
  cases s.key[k] <;> rfl

/-- Settles O43: each is one write, of a register or of a timer. -/
theorem timerMoves : Obligations.TimerMoves := fun x s =>
  ⟨⟨_, rfl, rfl, fun r => s.reg_setReg x r s.DT⟩, ⟨_, rfl, rfl⟩, ⟨_, rfl, rfl⟩⟩

end Sys2Proof.Machine
end

section
/-! SUPPORT. Proofs about faults, the timers' tick and the host's rights (60_exceptions): when a handler faults, what it
leaves to the host, and how a fault ends. -/

namespace Sys2Proof.Machine

/-! ### The table of causes, and the frame of a handler (R171, R172, R182) -/

/-- The rows of R171's table that an instruction can meet: from `s` it raises the cause. -/
inductive Raises (s : State) : Instr → FaultCause → Prop
  /-- A draw reads a sprite past 0xFFF (R47, R142). -/
  | drw (x y : RegNo) (n : BitVec 4) (hn : n.toNat ≠ 0) (h : Config.memSize < s.I.toNat + n.toNat) :
      Raises s (.drw x y n) .memRange
  /-- The digits would pass 0xFFF (R47, R123). -/
  | bcd (x : RegNo) (h : Config.memSize < s.I.toNat + 3) : Raises s (.bcd x) .memRange
  /-- The stored run would pass 0xFFF (R47, R125). -/
  | storeRegs (x : RegNo) (h : Config.memSize < s.I.toNat + (x.toNat + 1)) : Raises s (.storeRegs x) .memRange
  /-- The loaded run would pass 0xFFF (R47, R126). -/
  | loadRegs (x : RegNo) (h : Config.memSize < s.I.toNat + (x.toNat + 1)) : Raises s (.loadRegs x) .memRange
  /-- A call on a full stack (R82). -/
  | call (nnn : Addr12) (h : s.sp.val = 16) : Raises s (.call nnn) .stackOverflow
  /-- A return on an empty stack (R80). -/
  | ret (h : s.sp.val = 0) : Raises s .ret .stackUnderflow
  /-- A skip on a key number above 15 (R150). -/
  | skp (x : RegNo) (h : 15 < (s.reg x).toNat) : Raises s (.skp x) .keyIndex
  /-- The same of the opposite skip (R151). -/
  | sknp (x : RegNo) (h : 15 < (s.reg x).toNat) : Raises s (.sknp x) .keyIndex

/-- What a handler that does not fault leaves as it is (R182): the host's state, `dirty` once it is set, and the count
of draws unless it is that of `Cxnn`. -/
structure KeepsHostState (i : Instr) (s t : State) : Prop where
  frame : t = { t with
    key := s.key, opcode := s.opcode, fault := s.fault, diag := s.diag, rnd := s.rnd, schedule := s.schedule }
  dirty : s.dirty = true → t.dirty = true
  draws : t.draws ≠ s.draws → ∃ x nn, i = .rnd x nn

section
variable {i : Instr} {s t : State} {c : FaultCause}

theorem Raises.ne_none (h : Raises s i c) : c ≠ .none := by
  cases h <;> nofun

theorem exec_of_raises (h : Raises s i c) : exec i s = takeFault c s := by
  cases h with
  | drw x y n hn h => exact execDrw_of_outside hn h
  | bcd x h => exact execBcd_of_outside h
  | storeRegs x h => exact execStoreRegs_of_outside h
  | loadRegs x h => exact execLoadRegs_of_outside h
  | call nnn h => exact execCall_of_full (Fin.ext h) nnn
  | ret h => exact execRet_of_empty (Fin.ext h)
  | skp x h => exact execSkp_of_ge h
  | sknp x h => exact execSknp_of_ge h

theorem KeepsHostState.fault (h : KeepsHostState i s t) : t.fault = s.fault := (congrArg State.fault h.frame :)

theorem keepsHostState_skipIf (i : Instr) (b : Bool) (s : State) : KeepsHostState i s (skipIf b s) := by
  cases b <;> exact ⟨rfl, id, absurd rfl⟩

/-- Whatever the instruction: it meets a row of the table of causes and takes that fault, or it keeps what is the
host's. -/
theorem exec_raises_or_keeps (h : exec i s = .next t) :
    (∃ c, Raises s i c ∧ t = s.setFault c) ∨ KeepsHostState i s t := by
  cases i with
  | ret =>
    obtain ⟨_, rfl⟩ | ⟨hsp, rfl⟩ := execRet_cases h
    · exact .inr ⟨rfl, id, absurd rfl⟩
    · exact .inl ⟨_, .ret hsp, rfl⟩
  | call nnn =>
    obtain ⟨_, rfl⟩ | ⟨hsp, rfl⟩ := execCall_cases h
    · exact .inr ⟨rfl, id, absurd rfl⟩
    · exact .inl ⟨_, .call nnn hsp, rfl⟩
  | drw x y n =>
    obtain ⟨-, rfl⟩ | ⟨hn, hI, rfl⟩ := execDrw_cases h
    · exact .inr ⟨rfl, fun _ => rfl, absurd rfl⟩
    · exact .inl ⟨_, .drw x y n hn hI, rfl⟩
  | bcd x =>
    obtain ⟨-, rfl⟩ | ⟨hI, rfl⟩ := execBcd_cases h
    · exact .inr ⟨rfl, id, absurd rfl⟩
    · exact .inl ⟨_, .bcd x hI, rfl⟩
  | storeRegs x =>
    obtain ⟨-, rfl⟩ | ⟨hI, rfl⟩ := execStoreRegs_cases h
    · exact .inr ⟨rfl, id, absurd rfl⟩
    · exact .inl ⟨_, .storeRegs x hI, rfl⟩
  | loadRegs x =>
    obtain ⟨-, rfl⟩ | ⟨hI, rfl⟩ := execLoadRegs_cases h
    · exact .inr ⟨rfl, id, absurd rfl⟩
    · exact .inl ⟨_, .loadRegs x hI, rfl⟩
  | skp x =>
    obtain ⟨_, rfl⟩ | ⟨hk, rfl⟩ := execSkp_cases h
    · exact .inr (keepsHostState_skipIf _ _ s)
    · exact .inl ⟨_, .skp x hk, rfl⟩
  | sknp x =>
    obtain ⟨_, rfl⟩ | ⟨hk, rfl⟩ := execSknp_cases h
    · exact .inr (keepsHostState_skipIf _ _ s)
    · exact .inl ⟨_, .sknp x hk, rfl⟩
  | ldKey x => obtain ⟨-, rfl⟩ | ⟨_, -, rfl⟩ := execLdKey_cases h <;> exact .inr ⟨rfl, id, absurd rfl⟩
  | rnd x nn => obtain rfl := Host.Outcome.next.inj h; exact .inr ⟨rfl, id, fun _ => ⟨x, nn, rfl⟩⟩
  | cls => obtain rfl := Host.Outcome.next.inj h; exact .inr ⟨rfl, fun _ => rfl, absurd rfl⟩
  | seImm | sneImm | seReg | sneReg => obtain rfl := Host.Outcome.next.inj h; exact .inr (keepsHostState_skipIf _ _ s)
  | _ => obtain rfl := Host.Outcome.next.inj h; exact .inr ⟨rfl, id, absurd rfl⟩

/-- On a running machine a handler records a cause exactly when it meets a row of that cause. -/
theorem fault_eq_iff_raises (hs : s.Running) (h : exec i s = .next t) (hc : c ≠ .none) :
    t.fault = c ↔ Raises s i c := by
  constructor
  · rintro rfl
    obtain ⟨c, hr, rfl⟩ | hk := exec_raises_or_keeps h
    · exact hr
    · exact absurd (hk.fault.trans hs) hc
  · intro hr
    obtain rfl : s.setFault c = t := Host.Outcome.next.inj ((exec_of_raises hr).symm.trans h)
    rfl

/-! ### The rows of each cause, in the words of R171 -/

theorem raises_memRange_iff : Raises s i .memRange ↔
    (∃ x y n, i = .drw x y n ∧ 1 ≤ n.toNat ∧ 0xFFF < s.I.toNat + n.toNat - 1) ∨
      (∃ x, i = .bcd x ∧ 0xFFF < s.I.toNat + 2) ∨
      (∃ x, (i = .storeRegs x ∨ i = .loadRegs x) ∧ 0xFFF < s.I.toNat + x.toNat) := by
  constructor
  · intro h
    cases h with
    | drw x y n hn h => exact .inl ⟨x, y, n, rfl, Nat.pos_of_ne_zero hn, Nat.lt_sub_of_add_lt h⟩
    | bcd x h => exact .inr (.inl ⟨x, rfl, Nat.lt_of_succ_lt_succ h⟩)
    | storeRegs x h => exact .inr (.inr ⟨x, .inl rfl, Nat.lt_of_succ_lt_succ h⟩)
    | loadRegs x h => exact .inr (.inr ⟨x, .inr rfl, Nat.lt_of_succ_lt_succ h⟩)
  · rintro (⟨x, y, n, rfl, hn, h⟩ | ⟨x, rfl, h⟩ | ⟨x, rfl | rfl, h⟩)
    · exact .drw x y n (Nat.ne_of_gt hn) (Nat.add_lt_of_lt_sub h)
    · exact .bcd x (Nat.succ_lt_succ h)
    · exact .storeRegs x (Nat.succ_lt_succ h)
    · exact .loadRegs x (Nat.succ_lt_succ h)

theorem raises_stackOverflow_iff : Raises s i .stackOverflow ↔ ∃ nnn, i = .call nnn ∧ s.sp.val = 16 := by
  constructor
  · intro h
    cases h with
    | call nnn h => exact ⟨nnn, rfl, h⟩
  · rintro ⟨nnn, rfl, h⟩
    exact .call nnn h

theorem raises_stackUnderflow_iff : Raises s i .stackUnderflow ↔ i = .ret ∧ s.sp.val = 0 := by
  constructor
  · intro h
    cases h with
    | ret h => exact ⟨rfl, h⟩
  · rintro ⟨rfl, h⟩
    exact .ret h

theorem raises_keyIndex_iff :
    Raises s i .keyIndex ↔ ∃ x, (i = .skp x ∨ i = .sknp x) ∧ 0xF < (s.reg x).toNat := by
  constructor
  · intro h
    cases h with
    | skp x h => exact ⟨x, .inl rfl, h⟩
    | sknp x h => exact ⟨x, .inr rfl, h⟩
  · rintro ⟨x, rfl | rfl, h⟩
    · exact .skp x h
    · exact .sknp x h

end

/-! ### TICK (R183) -/

theorem toNat_countDown (b : Byte) : (countDown b).toNat = b.toNat - 1 := by
  unfold countDown
  split <;> bv_omega

section
variable {s : State}

theorem opTick_running (h : s.Running) : opTick s = { s with DT := countDown s.DT, ST := countDown s.ST } := if_pos h

theorem opTick_faulted (h : ¬ s.Running) : opTick s = s := if_neg h

theorem toNat_DT_opTick (h : s.Running) : (opTick s).DT.toNat = s.DT.toNat - 1 := by
  rw [opTick_running h, toNat_countDown]

theorem toNat_ST_opTick (h : s.Running) : (opTick s).ST.toNat = s.ST.toNat - 1 := by
  rw [opTick_running h, toNat_countDown]

/-- TICK writes the timers alone, running or faulted. -/
theorem opTick_frame (s : State) : opTick s = { s with DT := (opTick s).DT, ST := (opTick s).ST } := by
  by_cases h : s.Running
  · rw [opTick_running h]
  · rw [opTick_faulted h]

/-! ### The ways out of a fault (R173) -/

/-- Of a faulted machine, only RESET and LOAD write the fault. -/
theorem perform_faulted (hs : ¬ s.Running) {op : HostOp} {t : State} (h : perform op s = .next t) :
    t.fault = s.fault ∨ op = .reset ∨ ∃ bytes, op = .load bytes := by
  cases op with
  | reset => exact .inr (.inl rfl)
  | load bytes => exact .inr (.inr ⟨bytes, rfl⟩)
  | step r => obtain rfl := Host.Outcome.next.inj ((opStep_faulted hs r).symm.trans h); exact .inl rfl
  | tick => obtain rfl := Host.Outcome.next.inj h; exact .inl (congrArg State.fault (opTick_faulted hs))
  | setKeys | clearDirty => obtain rfl := Host.Outcome.next.inj h; exact .inl rfl

end

/-! ### The obligations -/

/-- Settles O45, by induction on the number of TICKs: the first lowers the timer by 1 and leaves the machine running. -/
theorem timerReachesZeroAfterItsCount : Obligations.TimerReachesZeroAfterItsCount := by
  intro s k
  induction k generalizing s with
  | zero => exact fun _ => ⟨rfl, rfl⟩
  | succ k ih =>
    intro hs
    have hrun : (opTick s).Running := (congrArg State.fault (opTick_frame s)).trans hs
    obtain ⟨hDT, hST⟩ := ih (opTick s) hrun
    rw [Function.iterate_succ_apply, hDT, hST, toNat_DT_opTick hs, toNat_ST_opTick hs]
    omega

/-- Settles O54: the rows of the table of causes, cause by cause; no row is of the two causes that LOAD and the fetch
raise. -/
theorem instructionFaultsExactlyWhenListed : Obligations.InstructionFaultsExactlyWhenListed := by
  intro i s t hs h
  have hfault (c : FaultCause) (hc : c ≠ .none) : t.fault = c ↔ Raises s i c := fault_eq_iff_raises hs h hc
  refine ⟨(hfault .memRange nofun).trans raises_memRange_iff,
    (hfault .stackOverflow nofun).trans raises_stackOverflow_iff,
    (hfault .stackUnderflow nofun).trans raises_stackUnderflow_iff,
    (hfault .keyIndex nofun).trans raises_keyIndex_iff, ?_, ?_⟩
  · exact fun hc => nomatch (hfault .loadTooLarge nofun).1 hc
  · exact fun hc => nomatch (hfault .fetchRange nofun).1 hc

/-- Settles O55: a handler that meets no row of the table leaves `fault` as it is, and one that meets a row writes
nothing else. -/
theorem faultEntryIsPrecise : Obligations.FaultEntryIsPrecise := by
  intro i s t hs h ht
  obtain ⟨c, -, rfl⟩ | hk := exec_raises_or_keeps h
  · rfl
  · exact absurd (hk.fault.trans hs) ht

/-- Settles O56: a STEP that nothing scheduled changes no fault, and of the scheduled operations only two do. -/
theorem faultIsStickyUntilResetOrLoad : Obligations.FaultIsStickyUntilResetOrLoad := by
  intro s t hs h hne
  cases hl : s.schedule with
  | nil =>
    rw [step_unscheduled hl, opStep_faulted hs] at h
    obtain rfl := Host.Outcome.next.inj h
    exact absurd rfl hne
  | cons op rest =>
    rw [step_scheduled hl] at h
    obtain hkept | rfl | ⟨bytes, rfl⟩ := perform_faulted (s := { s with schedule := rest }) hs h
    · exact absurd hkept hne
    · exact ⟨rest, .inl rfl⟩
    · exact ⟨rest, .inr ⟨bytes, rfl⟩⟩

/-- Settles O58: taking a fault writes `fault` alone, and never `none`; every other handler keeps what is the host's. -/
theorem programCannotWriteTheHostsState : Obligations.ProgramCannotWriteTheHostsState := by
  intro i s t h
  obtain ⟨c, hr, rfl⟩ | hk := exec_raises_or_keeps h
  · exact ⟨rfl, id, fun _ => hr.ne_none, rfl, rfl, rfl, rfl, absurd rfl⟩
  · exact ⟨(congrArg State.key hk.frame :), hk.dirty, hk.fault.trans_ne, (congrArg State.opcode hk.frame :),
      (congrArg State.diag hk.frame :), (congrArg State.rnd hk.frame :), (congrArg State.schedule hk.frame :),
      hk.draws⟩

/-- Settles O44: the two timers of a running machine, and a faulted one untouched. -/
theorem tickCountsEachTimerDown : Obligations.TickCountsEachTimerDown := fun s =>
  ⟨opTick_frame s, fun h => ⟨toNat_DT_opTick h, toNat_ST_opTick h⟩, opTick_faulted⟩

/-- Settles O46: each operation is one write, with no test of `fault`. -/
theorem collaboratorWrites : Obligations.CollaboratorWrites := fun _ => ⟨fun _ => ⟨fun _ => rfl, rfl⟩, rfl⟩

end Sys2Proof.Machine
end

section
/-! SUPPORT. Proofs about RESET, LOAD and the power-on state (70_reset_and_hazards). -/

namespace Sys2Proof.Machine

/-! ### What an address reads as after RESET (R200) -/

/-- The guard of `resetByte` is the font's own length, so its default for a missing byte is never taken. -/
theorem resetByte_eq_font (a : Nat) : resetByte a = if h : a < font.length then font[a] else 0 := by
  unfold resetByte
  by_cases h : a < font.length
  · rw [dif_pos h, if_pos (font_length ▸ h), List.getD_eq_getElem _ _ h]
  · rw [dif_neg h, if_neg (font_length ▸ h)]

/-! ### The two answers of LOAD (R201, R202) -/

section
variable {bytes : List Byte}

theorem opLoad_of_fits (h : bytes.length ≤ Config.maxProgram) (s : State) :
    opLoad bytes s = { opReset s with mem := (opReset s).mem.writeList Config.programBase bytes } := if_pos h

theorem opLoad_of_tooLarge (h : Config.maxProgram < bytes.length) (s : State) :
    opLoad bytes s = (opReset s).setFault .loadTooLarge := if_neg (Nat.not_le_of_gt h)

end

/-! ### The obligations -/

/-- Settles O48: LOAD writes one run from 0x200, and a program that fits ends at 0xFFF or below. -/
theorem loadPlacesTheProgram : Obligations.LoadPlacesTheProgram := by
  intro bytes s hfits
  have hinside : Config.programBase + bytes.length ≤ Config.memSize := Nat.add_le_add_left hfits Config.programBase
  rw [opLoad_of_fits hfits]
  refine ⟨rfl, fun k hk => ?_, fun a ha => ?_, rfl, rfl⟩
  · exact Memory.read_writeList_inside reset_memoryCanonical bytes hinside hk
  · exact Memory.read_writeList_outside (opReset s).mem bytes ha

/-- Settles O47: a register, a return address and a key are entries of blank vectors, a pixel one of a blank display, and
memory lists nothing. -/
theorem resetWritesEveryItem : Obligations.ResetWritesEveryItem := by
  rintro s _ rfl
  refine ⟨fun r => ?registers, rfl, rfl, rfl, rfl, fun k => ?stack, fun k => ?keys, fun px py _ _ => ?pixels,
    rfl, rfl, rfl, rfl, font_length, fun a => ?memory⟩
  case registers => exact Vector.getElem_replicate r.isLt
  case stack => exact Vector.getElem_replicate k.isLt
  case keys => exact Vector.getElem_replicate k.isLt
  case pixels => exact pixel_blank px py
  case memory => exact (Memory.read_nil a).trans (resetByte_eq_font a)

/-- Settles O49: the size check comes before the first write, so only `fault` differs from RESET. -/
theorem loadTooLargeIsRefused : Obligations.LoadTooLargeIsRefused := by
  intro bytes s hlarge
  rw [opLoad_of_tooLarge hlarge]
  exact ⟨rfl, rfl⟩

/-- Settles O50: RESET's memory is canonical, its pc and return addresses are within their bounds, and with no fault there
is no event to withdraw. -/
theorem resetMeetsTheInvariant : Obligations.ResetMeetsTheInvariant :=
  ⟨⟨reset_memoryCanonical, opReset_controlBounded State.reset, fun hfault => absurd rfl hfault⟩, rfl, rfl⟩

end Sys2Proof.Machine
end

section
/-! SUPPORT. Proofs about the step as a whole: that it answers, what the schedule and a fault make of it, and which
instruction writes which item of the state (10_state, 60_exceptions). -/

namespace Sys2Proof.Machine

/-! ### The fault and the event port under the host's operations (R172, R173, R202) -/

theorem fault_opLoad (bytes : List Byte) (s : State) :
    (opLoad bytes s).fault = if bytes.length ≤ Config.maxProgram then .none else .loadTooLarge := by
  split
  case isTrue h => rw [opLoad_of_fits h]; rfl
  case isFalse h => rw [opLoad_of_tooLarge (Nat.lt_of_not_le h)]; rfl

theorem diag_opLoad (bytes : List Byte) (s : State) : (opLoad bytes s).diag = none := by
  unfold opLoad
  split <;> rfl

/-- TICK writes neither the fault nor the event port. -/
theorem opTick_faultQuiet {s : State} (hs : s.FaultQuiet) : (opTick s).FaultQuiet := by
  rw [opTick_frame]
  exact hs

/-- A STEP shows an event only for an unknown opcode, and that one leaves the machine running. -/
theorem opStep_faultQuiet {r : Byte} {s t : State} (h : opStep r s = .next t) : t.FaultQuiet := by
  obtain ⟨-, rfl⟩ | ⟨-, -, rfl⟩ | ⟨hrun, -, w, -, ⟨i, -, hx⟩ | ⟨-, rfl⟩⟩ := opStep_cases h
  · exact fun _ => rfl
  · exact fun _ => rfl
  · obtain ⟨-, -, -, -, hdiag, -⟩ := programCannotWriteTheHostsState i _ t hx
    exact fun _ => hdiag
  · exact fun hfault => absurd hrun hfault

/-! ### The obligations -/

/-- Settles O11: every handler, and every step, answers a next state on any two states a program cannot tell apart, so
on one state and itself. -/
theorem everyStepAnswersNext : Obligations.EveryStepAnswersNext := by
  refine ⟨fun s => ?_, fun i s => ?_⟩
  · obtain ⟨t, -, hstep, -⟩ := step_seenAlike s s
    exact ⟨t, hstep⟩
  · obtain ⟨t, -, hexec, -⟩ := exec_seenAlike s s i
    exact ⟨t, hexec⟩

/-- Settles O12: the store leaves pc at the run it wrote, whose first two bytes are V0 and V1. -/
theorem nextFetchSeesTheStore : Obligations.NextFetchSeesTheStore := by
  intro s hm hpc hI
  have hr : s.I.toNat + 2 ≤ Config.memSize := Nat.add_le_add_right hI 2
  have stored (k : RegNo) (hk : k.toNat ≤ 1) :
      (s.mem.writeList s.I.toNat (s.regRun 1)).read (s.I.toNat + k.toNat) = s.reg k :=
    Memory.read_writeList_regRun hm s hr hk
  refine ⟨_, execStoreRegs_of_inRange hr, ?_⟩
  rw [fetchWord_of_le (by rwa [hpc]), hpc]
  exact congrArg some (congrArg₂ wordOfBytes (stored 0 (by decide)) (stored 1 (by decide)))

/-- Settles O53: a STEP that ends faulted shows no event, RESET and LOAD withdraw the event, and the other operations
write neither the fault nor the event port. -/
theorem stepKeepsFaultQuiet : Obligations.StepKeepsFaultQuiet := fun _ _ hs h =>
  step_keeps (fun _ _ _ _ => opStep_faultQuiet) (fun _ _ _ => rfl) (fun bytes s _ _ => diag_opLoad bytes s)
    (fun _ => opTick_faultQuiet) (fun _ _ h => h) (fun _ h => h) (fun _ _ h => h) hs h

/-- Settles O57, by the instruction: what it leaves is left by the law of the update it makes, and what it writes lists
it; taking a fault writes none of the eight items. -/
theorem whoWritesWhat : Obligations.WhoWritesWhat := by
  intro i s t h
  cases i with
  | ret => obtain ⟨_, rfl⟩ | ⟨-, rfl⟩ := execRet_cases h <;> simp
  | call nnn => obtain ⟨_, rfl⟩ | ⟨-, rfl⟩ := execCall_cases h <;> simp
  | drw x y n => obtain ⟨-, rfl⟩ | ⟨-, -, rfl⟩ := execDrw_cases h <;> simp
  | bcd x => obtain ⟨-, rfl⟩ | ⟨-, rfl⟩ := execBcd_cases h <;> simp
  | storeRegs x => obtain ⟨-, rfl⟩ | ⟨-, rfl⟩ := execStoreRegs_cases h <;> simp
  | loadRegs x => obtain ⟨-, rfl⟩ | ⟨-, rfl⟩ := execLoadRegs_cases h <;> simp
  | skp x => obtain ⟨_, rfl⟩ | ⟨-, rfl⟩ := execSkp_cases h <;> simp
  | sknp x => obtain ⟨_, rfl⟩ | ⟨-, rfl⟩ := execSknp_cases h <;> simp
  | ldKey x => obtain ⟨-, rfl⟩ | ⟨_, -, rfl⟩ := execLdKey_cases h <;> simp
  | _ => obtain rfl := Host.Outcome.next.inj h; simp

/-- Settles O9: the faulted test of STEP and TICK, the writes of the other operations, and the size check of LOAD. -/
theorem faultedMachineOnlyListens : Obligations.FaultedMachineOnlyListens := fun s hs =>
  ⟨opStep_faulted hs, opTick_faulted hs, fun _ => rfl, rfl, rfl, fun bytes => fault_opLoad bytes s⟩

/-- Settles O10: a scheduled operation is the next one, whichever it is. -/
theorem scheduledOperationIsPerformed : Obligations.ScheduledOperationIsPerformed := fun _ _ =>
  ⟨step_scheduled, fun _ => step_scheduled, fun _ => step_scheduled, step_scheduled, fun _ => step_scheduled,
    step_scheduled⟩

end Sys2Proof.Machine
end
